-- ==== Sys2Proof/Word.lean ====
section
/-! DEFINITION. The word types of the machine: SCR and the general registers hold 32 bits (R5, R10, R31),
a T32 instruction is made of 16-bit halfwords (R55), a listing of bytes. -/

namespace Sys2Proof

/-- A 32-bit value: SCR (R10), a general register (R31), an A32 instruction word (R54). -/
abbrev Word := BitVec 32

/-- A T32 halfword (R55). -/
abbrev Half := BitVec 16

/-- A byte of a listing of instruction words (R43). -/
abbrev Byte := BitVec 8

end Sys2Proof
end

