-- ==== Sys2Proof/Config.lean ====
section
/-! DEFINITION. What an implementation fixes (the parameters of 00_scope.md section 4, R3, R4, R6), what the
outside world and the open choices supply to one step (R6, R38, R40, R42, R48, R70 to R73, R78, R95 to R99), and the free
value that supplies them where nothing in the state does. -/

namespace Sys2Proof

/-- `RES0_MODE` of R28: what a reserved bit does with a written 1. -/
inductive Res0Mode where
  | hardwired   -- writes ignored, reads 0
  | stored      -- the bit keeps what is written and has no other effect
  deriving DecidableEq, Repr, Inhabited

/-- `SYNC_MODEL` of R48: when a write to SCR governs later instructions. -/
inductive SyncModel where
  | immediate   -- the next instruction is governed by the new value
  | relaxed     -- each later instruction draws each field from the values SCR has held
  deriving DecidableEq, Repr, Inhabited

/-- `HCE0_EL2_CHOICE` and `SCD_SECURE_CHOICE` of R74 and R76: a static choice, or a draw per execution. -/
inductive ListChoice where
  | undefined
  | nop
  | drawn
  deriving DecidableEq, Repr, Inhabited

/-- The static parameters of the implementation (R3, R4, R6), fixed for a run: no step changes them. -/
structure Impl where
  /-- `HAVE_EL3` (R4). -/
  haveEl3 : Bool
  /-- `EL3_AARCH32`, the pseudocode's `ELUsingAArch32(EL3)` (R4). -/
  el3AArch32 : Bool
  /-- `HAVE_EL2` (R4). -/
  haveEl2 : Bool
  /-- `EL2_AARCH32`; true wherever SCR exists (D18), so it is read only where SCR does not. -/
  el2AArch32 : Bool
  /-- `HAVE_RAS` (R4). -/
  haveRas : Bool
  /-- `HAVE_RAS_V8_4` (R4). -/
  haveRasV84 : Bool
  /-- `HAVE_NET` (R4). -/
  haveNet : Bool
  /-- `SCR_MAPPED_TO_SCR_EL3` (R3, D32): read by no rule. -/
  scrMapped : Bool
  /-- `RES0_MODE` (R28). -/
  res0Mode : Res0Mode
  /-- `SYNC_MODEL` (R48). -/
  syncModel : SyncModel
  /-- `NS_GUARD_IN_MONITOR` (R64, D22). -/
  nsGuardInMonitor : Bool
  /-- `HCE0_EL2_CHOICE` (R74, D23). -/
  hce0El2Choice : ListChoice
  /-- `SCD_SECURE_CHOICE` (R76, D24). -/
  scdSecureChoice : ListChoice
  /-- `TLB_FLUSHED_AT` (R42, D26): the numbers of the steps at whose start the TLB's copy of SIF is fresh. -/
  tlbFlushedAt : List Nat
  deriving DecidableEq, Repr, Inhabited

/-- The asynchronous kinds of R95 to R97. -/
inductive Async where
  | irq
  | fiq
  | ea
  deriving DecidableEq, Repr, Inhabited

/-- What one step takes from outside the machine and what decides its open choices: the per-execution inputs of R6, the
environment and the scheduler of D38, the static functions of D28 and D29 at this step, and the draws. -/
structure StepInput where
  /-- The environment makes an IRQ, an FIQ, an External abort pending in this step (R38, D38). -/
  assertIRQ : Bool
  assertFIQ : Bool
  assertEA : Bool
  /-- The environment delivers a Wakeup event in this step (R72, D38). -/
  wakeup : Bool
  /-- The asynchronous exception the scheduler would take in this step, if it is enabled (D38). -/
  take : Option Async
  /-- `MASK_I`, `MASK_OTHER_F`, `MASK_OTHER_A` at this step (R95, R98, R99, D28). -/
  maskI : Bool
  maskOtherF : Bool
  maskOtherA : Bool
  /-- `HYP_ROUTE(kind)` at this step (R95 to R97, D29). -/
  hypRouteIRQ : Bool
  hypRouteFIQ : Bool
  hypRouteEA : Bool
  /-- `ns` of R40: the fetched location is Non-secure memory. -/
  ns : Bool
  /-- The draw of `sif_eff` (R42): honoured where the TLB may hold that value. -/
  sifDraw : Bool
  /-- The draws of the fields of SCR under `relaxed` (R48): bit `i` is the value asked for bit `i`. -/
  scrDraw : Word
  /-- `CondPassed` (R73). -/
  condPassed : Bool
  /-- `WouldSleep` (R38). -/
  wouldSleep : Bool
  /-- `LowerTrapWFE`, `LowerTrapWFI` (R70, R71). -/
  lowerTrapWFE : Bool
  lowerTrapWFI : Bool
  /-- The draw of R72: the Monitor trap on a WFE or WFI is taken. -/
  trapTaken : Bool
  /-- A waiting WFE or WFI completes in this step with no Wakeup event (R72). -/
  waitEnds : Bool
  /-- `ErrPreempted` (R78). -/
  errPreempted : Bool
  /-- The draws of the two lost lists where the choice is drawn (R74, R76): true is no-operation. -/
  hce0Nop : Bool
  scdNop : Bool
  /-- `EL2_ENABLED`, read only where SCR does not exist (R65, D18). -/
  el2Enabled : Bool
  deriving DecidableEq, Repr, Inhabited

/-- Nothing happens outside the machine: no event, an ordinary fetch, the condition passes, no sleep. -/
def StepInput.quiet : StepInput where
  assertIRQ := false
  assertFIQ := false
  assertEA := false
  wakeup := false
  take := none
  maskI := false
  maskOtherF := false
  maskOtherA := false
  hypRouteIRQ := false
  hypRouteFIQ := false
  hypRouteEA := false
  ns := false
  sifDraw := false
  scrDraw := 0
  condPassed := true
  wouldSleep := false
  lowerTrapWFE := false
  lowerTrapWFI := false
  trapTaken := false
  waitEnds := false
  errPreempted := false
  hce0Nop := false
  scdNop := false
  el2Enabled := false

/-- FREE VALUE (assumption log 6). What the outside world and the open choices supply at a step for which the state scripts
nothing: nothing constrains it. -/
opaque Config.freeInput : Nat → StepInput

end Sys2Proof
end

