-- ==== Sys2Proof/Syntax.lean ====
section
/-! DEFINITION. The instructions: one constructor per row of spec/opcode_table.json, the words they are written in, and the
abstract error-record access, which has no encoding (R35, R59). -/

namespace Sys2Proof

/-- The instruction set of a word, `INSTR_SET` of R57. -/
inductive InstrSet where
  | a32
  | t32
  deriving DecidableEq, Repr

/-- The instructions of the opcode table. `cond` is the A32 condition field, `rt` the register number, an immediate is read
by no rule (R59). -/
inductive Instr where
  | mrcA32 (cond rt : BitVec 4)     -- MRC (SCR), A32 (R54, R61)
  | mcrA32 (cond rt : BitVec 4)     -- MCR (SCR), A32 (R54, R63)
  | mrcT32 (rt : BitVec 4)          -- MRC (SCR), T32 (R55, R61)
  | mcrT32 (rt : BitVec 4)          -- MCR (SCR), T32 (R55, R63)
  | wfeA32 (cond : BitVec 4)        -- WFE, A32 (R59, R70)
  | wfiA32 (cond : BitVec 4)        -- WFI, A32 (R59, R71)
  | smcA32 (cond imm4 : BitVec 4)   -- SMC, A32 (R59, R76)
  | hvcA32 (imm16 : BitVec 16)      -- HVC, A32 (R59, R74)
  | wfeT16                          -- WFE, T32 16-bit (R59, R70)
  | wfiT16                          -- WFI, T32 16-bit (R59, R71)
  | wfeW                            -- WFE.W, T32 32-bit (R59, R70)
  | wfiW                            -- WFI.W, T32 32-bit (R59, R71)
  | smcT32 (imm4 : BitVec 4)        -- SMC, T32 (R59, R76)
  | hvcT32 (imm16 : BitVec 16)      -- HVC, T32 (R59, R74)
  deriving DecidableEq, Repr

/-- The words of one instruction, with the instruction set they are decoded in (R54, R55, R57). -/
inductive CodeWord where
  | a32 (w : Word)
  | t16 (hw : Half)
  | t32 (hw1 hw2 : Half)
  deriving DecidableEq, Repr

/-- The instruction set a code word belongs to. -/
def CodeWord.set : CodeWord → InstrSet
  | .a32 _ => .a32
  | .t16 _ => .t32
  | .t32 _ _ => .t32

/-- The instruction set an instruction belongs to. -/
def Instr.set : Instr → InstrSet
  | .mrcA32 _ _ => .a32
  | .mcrA32 _ _ => .a32
  | .mrcT32 _ => .t32
  | .mcrT32 _ => .t32
  | .wfeA32 _ => .a32
  | .wfiA32 _ => .a32
  | .smcA32 _ _ => .a32
  | .hvcA32 _ => .a32
  | .wfeT16 => .t32
  | .wfiT16 => .t32
  | .wfeW => .t32
  | .wfiW => .t32
  | .smcT32 _ => .t32
  | .hvcT32 _ => .t32

/-- The seventeen error-record registers TERR names (R35, R78). -/
inductive ErrReg where
  | erridr
  | errselr
  | erxaddr
  | erxaddr2
  | erxctlr
  | erxctlr2
  | erxfr
  | erxfr2
  | erxmisc0
  | erxmisc1
  | erxmisc2
  | erxmisc3
  | erxstatus
  | erxmisc4
  | erxmisc5
  | erxmisc6
  | erxmisc7
  deriving DecidableEq, Repr

/-- `dir` of R35. -/
inductive ErrDir where
  | read
  | write
  deriving DecidableEq, Repr

/-- One place of the program (R37, D14): the words of an instruction, or the abstract error-record access of R78, to which no
word decodes. -/
inductive ProgItem where
  | code (c : CodeWord)
  | errAccess (reg : ErrReg) (dir : ErrDir)
  deriving DecidableEq, Repr

end Sys2Proof
end

