-- ==== Sys2Proof/Machine/State.lean ====
section
/-! DEFINITION. The state of the machine: every piece of state of 10_state.md, what the spec calls inputs of the model (R32 to
R34), the hidden state (R36, R38, R48), the outcome record a run ends with (R90, R101), and the model's own fields. -/

namespace Sys2Proof.Machine

/-- The modes of R32. -/
inductive Mode where
  | user
  | fiq
  | irq
  | supervisor
  | monitor
  | abort
  | hyp
  | undefined
  | system
  deriving DecidableEq, Repr

/-- The Exception levels, the values of `PSTATE.EL` (R32, R103). -/
inductive EL where
  | el0
  | el1
  | el2
  | el3
  deriving DecidableEq, Repr

/-- The named fields of SCR (R11). -/
inductive Field where
  | terr
  | twe
  | twi
  | sif
  | hce
  | scd
  | net
  | aw
  | fw
  | ea
  | fiq
  | irq
  | ns
  deriving DecidableEq, Repr

/-- The instruction that would wait (R70, R71). -/
inductive WaitInstr where
  | wfe
  | wfi
  deriving DecidableEq, Repr

/-- What a Monitor trap is taken for: the model's own tag (R94). -/
inductive TrapCause where
  | wait (i : WaitInstr)
  | errAccess (reg : ErrReg) (dir : ErrDir)
  deriving DecidableEq, Repr

/-- The outcome records of R90: how a run ends other than by passing its last word. `Undefined`'s target is the level it is
taken to where the spec states one, and `none` where it is not in the source (R91). -/
inductive Ending where
  | undefined (target : Option EL)
  | systemAccessTrapA64 (el : EL) (arg : Nat)
  | hypTrap (arg : Nat)
  | monitorTrap (cause : TrapCause)
  | lowerELTrap (i : WaitInstr)
  | fetchNotPermitted (addr : Nat)
  | otherException (reg : ErrReg) (dir : ErrDir)
  | takeIRQ (mode : Mode)
  | takeFIQ (mode : Mode)
  | takeExternalAbort (mode : Mode)
  | hvcEnabled
  | smcEnabled
  | errAccessProceeds
  deriving DecidableEq, Repr

/-- The one-bit control inputs of R34, read and never written by the rules. -/
structure Controls where
  hcrTGE : Bool
  hcrAMO : Bool
  hcrFMO : Bool
  hcrTWE : Bool
  hcrTWI : Bool
  hstrT1 : Bool
  hstrEl2T1 : Bool
  scrEl3NS : Bool
  scrEl3EEL2 : Bool
  sctlrNTWE : Bool
  sctlrNTWI : Bool
  deriving DecidableEq, Repr

/-- `pend` of R38: which asynchronous exceptions are pending. -/
structure Pend where
  irq : Bool
  fiq : Bool
  ea : Bool
  deriving DecidableEq, Repr

/-- A set of values of SIF, the shape of `sif_tlb` (R36): whether it holds 0, whether it holds 1. -/
structure SifSet where
  has0 : Bool
  has1 : Bool
  deriving DecidableEq, Repr

/-- The machine's state. -/
structure State where
  /-- The implementation's parameters (R3, R4, R6): the model's own place for them; no step changes them. -/
  impl : Impl
  /-- SCR (R10). -/
  scr : Word
  /-- The general registers `x[0]` to `x[15]` (R31). -/
  x : Vector Word 16
  /-- The program counter, an index into `program` (R37). -/
  pc : Nat
  /-- The PE mode (R32); `PSTATE.EL` is computed from it (R103). -/
  mode : Mode
  /-- CPSR.A (R33). -/
  cpsrA : Bool
  /-- CPSR.F (R33). -/
  cpsrF : Bool
  /-- The control registers' fields (R34). -/
  ctl : Controls
  /-- The values of SIF the TLB may hold (R36). -/
  sifTlb : SifSet
  /-- The values SCR has held since the start of the run (R48), ascending, no repeats. -/
  scrHist : List Word
  /-- The pending asynchronous exceptions (R38). -/
  pend : Pend
  /-- A WFE or WFI at `pc` is waiting (R72): the model's own field. -/
  waiting : Bool
  /-- The outcome record the run ended with (R90, R101). -/
  ended : Option Ending
  /-- The program text (R37, D14): no step changes it. -/
  program : List ProgItem
  /-- What the outside world supplies to the coming steps, oldest first: the model's own field. -/
  env : List StepInput
  /-- The number of the step (R42); the free value is applied to it: the model's own field. -/
  tick : Nat
  deriving DecidableEq, Repr

/-- Why a step can stop with a fault. -/
inductive Fault where
  /-- Raised by `step` where the run has already ended with the outcome record `ended` (R101: nothing after the exception is
  modelled). Safe: nothing is claimed of what the handler does. -/
  | runEnded
  /-- Raised by `step` where `pc` has passed the last word: the run is over, and this end is the good one (D37). Safe: nothing
  is claimed of what the PE executes after the last word. -/
  | programEnd
  deriving DecidableEq, Repr

/-- Why the model has no meaning for what a step would run. -/
inductive Refusal where
  /-- Raised by `exec` for an instruction that has no meaning yet. Safe. -/
  | notModelled (mnemonic : String)
  /-- `refuse(ConditionalSysregAccess)` (R56): raised by the MRC and MCR meanings for a condition other than always. Safe. -/
  | conditionalSysregAccess
  /-- `refuse(BadRt)` (R58): raised by the decoder, and by the MRC and MCR meanings for a register number that is not
  admitted. Safe. -/
  | badRt
  /-- `refuse(NotInScope)` (R58): raised by `step` for a word the decoder does not accept. Safe. -/
  | notInScope
  /-- `refuse(NoRAS)` (R78): raised by the error-record access where RAS is not implemented. Safe. -/
  | noRAS
  /-- `refuse(NoRASv8_4)` (R78): raised by the access to ERXMISC4 to ERXMISC7 where ARMv8.4-RAS is not implemented. Safe. -/
  | noRASv84
  /-- The configuration refusal of D1: raised by everything but the SCR access check where SCR does not exist. Safe. -/
  | configurationRefused
  deriving DecidableEq, Repr

/-- The implementation of the reset state: every option the source names is present, reserved bits are hardwired, a write to SCR
is synchronised by nothing (assumption log 3). -/
def resetImpl : Impl where
  haveEl3 := true
  el3AArch32 := true
  haveEl2 := true
  el2AArch32 := true
  haveRas := true
  haveRasV84 := true
  haveNet := true
  scrMapped := false
  res0Mode := .hardwired
  syncModel := .relaxed
  nsGuardInMonitor := false
  hce0El2Choice := .drawn
  scdSecureChoice := .drawn
  tlbFlushedAt := []

/-- The control inputs of the reset state, the family's reset values (assumption log 2). -/
def resetControls : Controls where
  hcrTGE := false
  hcrAMO := false
  hcrFMO := false
  hcrTWE := false
  hcrTWI := false
  hstrT1 := false
  hstrEl2T1 := false
  scrEl3NS := false
  scrEl3EEL2 := false
  sctlrNTWE := true
  sctlrNTWI := true

/-- The machine right after a reset into EL3 using AArch32 (R29, R120, R121). SCR, `pc`, `sif_tlb`, `scr_hist` and `pend` are
the spec's; the general registers (assumption log 1), the mode, the masks and the controls (assumption log 2), the
implementation (assumption log 3), and the fields of the model's own (assumption log 6) are the model's. -/
def State.reset : State where
  impl := resetImpl
  scr := 0
  x := Vector.replicate 16 0
  pc := 0
  mode := .supervisor
  cpsrA := true
  cpsrF := true
  ctl := resetControls
  sifTlb := ⟨true, false⟩
  scrHist := [0]
  pend := ⟨false, false, false⟩
  waiting := false
  ended := none
  program := []
  env := []
  tick := 0

end Sys2Proof.Machine
end

