-- ==== Sys2Proof/Machine/Ops.lean ====
section
/-! DEFINITION. The named operations: the fields of SCR and their masks, the Security state and the Exception level, the value
that governs an instruction, the access check, the write to SCR, ending a run with an outcome record, completing, waiting,
and reset. -/

namespace Sys2Proof

/-- SCR exists only "When EL3 is implemented and can use AArch32" (R2). -/
def Impl.scrExists (m : Impl) : Bool := m.haveEl3 && m.el3AArch32

end Sys2Proof

namespace Sys2Proof.Machine

/-- The three outcomes of a step of this machine. -/
abbrev Result := Host.Outcome State Fault Refusal

/-- The same outcome with a next state changed by `f`. -/
def onNext (f : State → State) : Result → Result
  | .next s => .next (f s)
  | .fault r => .fault r
  | .refused r => .refused r

/-! ### Fields and masks of SCR -/

/-- The bit of a field (R11). -/
def Field.bit : Field → Nat
  | .terr => 15
  | .twe => 13
  | .twi => 12
  | .sif => 9
  | .hce => 8
  | .scd => 7
  | .net => 6
  | .aw => 5
  | .fw => 4
  | .ea => 3
  | .fiq => 2
  | .irq => 1
  | .ns => 0

/-- `v.F`, a field of a value of SCR (R11). -/
def field (f : Field) (v : Word) : Bool := v.getLsbD f.bit

/-- `RW_MASK` of an implementation (R11). -/
def rwMask (m : Impl) : Word :=
  0x000032BF#32 ||| (if m.haveRas then 0x8000#32 else 0) ||| (if m.haveEl2 then 0x0100#32 else 0)
    ||| (if m.haveNet then 0x0040#32 else 0)

/-- `RES0_MASK` of an implementation (R11). -/
def res0Mask (m : Impl) : Word := ~~~ rwMask m

/-! ### What the step takes from outside -/

/-- The input of this step: the oldest the state scripts, or the free value of this step. -/
def State.input (s : State) : StepInput := s.env.headD (Config.freeInput s.tick)

/-! ### The controls of EL2, which read 0 where EL2 is absent (R34, D18) -/

/-- HCR.TGE. -/
def State.hcrTGE (s : State) : Bool := s.impl.haveEl2 && s.ctl.hcrTGE
/-- HCR.AMO. -/
def State.hcrAMO (s : State) : Bool := s.impl.haveEl2 && s.ctl.hcrAMO
/-- HCR.FMO. -/
def State.hcrFMO (s : State) : Bool := s.impl.haveEl2 && s.ctl.hcrFMO
/-- HSTR.T1. -/
def State.hstrT1 (s : State) : Bool := s.impl.haveEl2 && s.ctl.hstrT1
/-- HSTR_EL2.T1. -/
def State.hstrEl2T1 (s : State) : Bool := s.impl.haveEl2 && s.ctl.hstrEl2T1

/-! ### Security state and Exception level -/

/-- `SecurityState() == Secure` under a value of SCR (R30). -/
def secureUnder (mode : Mode) (scr : Word) : Bool := mode == .monitor || !field .ns scr

/-- `ELof` (R103). Where SCR does not exist no Secure PL1 mode is at EL3 (R60), so those modes are at EL1: assumption log 18. -/
def elUnder (m : Impl) (mode : Mode) (scr : Word) : EL :=
  match mode with
  | .user => .el0
  | .hyp => .el2
  | .monitor => .el3
  | _ => if m.scrExists && secureUnder mode scr then .el3 else .el1

/-- `IsSecure()` under the current value of SCR (R30). -/
def State.isSecure (s : State) : Bool := secureUnder s.mode s.scr

/-- `PSTATE.EL` under the current value of SCR (R32, R103). -/
def State.el (s : State) : EL := elUnder s.impl s.mode s.scr

/-! ### The value of SCR that governs an instruction (R48) -/

/-- The bits that some value of `hist`, or the current value, has set. -/
def everSet (scr : Word) (hist : List Word) : Word := hist.foldl (· ||| ·) scr

/-- The bits that every value of `hist`, and the current value, has set. -/
def alwaysSet (scr : Word) (hist : List Word) : Word := hist.foldl (· &&& ·) scr

/-- Field by field, the drawn bit where some value SCR has held has it, and the only bit there is otherwise (R48). -/
def drawnScr (draw scr : Word) (hist : List Word) : Word := (draw &&& everSet scr hist) ||| alwaysSet scr hist

/-- The value of SCR that governs an instruction other than MRC and MCR, a fetch and an asynchronous exception in this step:
the current one under `immediate`, a draw from `scr_hist` for each field under `relaxed` (R48, R66). -/
def State.governing (s : State) : Word :=
  match s.impl.syncModel with
  | .immediate => s.scr
  | .relaxed => drawnScr s.input.scrDraw s.scr s.scrHist

/-- A field of the governing value. -/
def State.governed (s : State) (f : Field) : Bool := field f s.governing

/-- `IsSecure()` under the governing value (R30, R66). -/
def State.governedSecure (s : State) : Bool := secureUnder s.mode s.governing

/-- `PSTATE.EL` under the governing value (R66, R103). -/
def State.governedEl (s : State) : EL := elUnder s.impl s.mode s.governing

/-! ### Ending a run, completing, waiting -/

/-- Taking an exception, and every other outcome of R90: the run ends with the outcome record, and SCR, the registers and `pc`
are those before the raising instruction (R90, R101; assumption log 4). -/
def endWith (e : Ending) (s : State) : State := { s with ended := some e }

/-- An instruction completes: `pc <- pc + 1` (R37); no wait is left. -/
def complete (s : State) : State := { s with pc := s.pc + 1, waiting := false }

/-- The wait of a WFE or WFI goes on: nothing else changes (R72). -/
def keepWaiting (s : State) : State := { s with waiting := true }

/-- `WaitThenComplete` (R72): completes at the latest with a Wakeup event, may complete without one, or waits on; no other state
changes while it waits. -/
def waitThenComplete (s : State) : State :=
  if s.input.wakeup || s.input.waitEnds then complete s else keepWaiting s

/-- The configuration of D1: without it SCR does not exist and the rules of its fields say nothing. -/
def inConfiguration (s : State) (r : Result) : Result :=
  if s.impl.scrExists then r else .refused .configurationRefused

/-- A choice of D23 or D24: static, or the draw of this execution; true is no-operation. -/
def choiceIsNop (c : ListChoice) (draw : Bool) : Bool :=
  match c with
  | .undefined => false
  | .nop => true
  | .drawn => draw

/-! ### The access check (R60) -/

/-- What the access check reads (R60, R65). -/
structure AccessInputs where
  el : EL
  el2Enabled : Bool
  el2AArch32 : Bool
  el3AArch32 : Bool
  hstrEl2T1 : Bool
  hstrT1 : Bool
  scrEl3NS : Bool
  scrEl3EEL2 : Bool
  deriving DecidableEq, Repr

/-- `SCRAccessCheck()`, every arm in the order written (R60): `none` is Allow, `some e` the outcome raised. -/
def scrAccessCheck (a : AccessInputs) : Option Ending :=
  match a.el with
  | .el0 => some (.undefined none)
  | .el1 =>
    if a.el2Enabled && !a.el2AArch32 && a.hstrEl2T1 then some (.systemAccessTrapA64 .el2 0x03)
    else if a.el2Enabled && a.el2AArch32 && a.hstrT1 then some (.hypTrap 0x03)
    else if !a.el2AArch32 && !a.scrEl3NS && a.scrEl3EEL2 then some (.systemAccessTrapA64 .el2 0x03)
    else if !a.el3AArch32 && !a.scrEl3NS then some (.systemAccessTrapA64 .el3 0x03)
    else some (.undefined none)
  | .el2 => some (.undefined none)
  | .el3 => none

/-- `EL2Enabled()` (R65, D18): defined where SCR exists, an input limited by `HAVE_EL2` elsewhere. -/
def State.el2Enabled (s : State) : Bool :=
  s.impl.haveEl2 && (if s.impl.scrExists then field .ns s.scr else s.input.el2Enabled)

/-- `ELUsingAArch32(EL2)` (R65, D18): true where SCR exists, the parameter elsewhere. -/
def State.el2UsingAArch32 (s : State) : Bool := s.impl.scrExists || s.impl.el2AArch32

/-- The values the access check reads in a state; it reads the current SCR under both synchronisation models (R48). -/
def State.accessInputs (s : State) : AccessInputs where
  el := s.el
  el2Enabled := s.el2Enabled
  el2AArch32 := s.el2UsingAArch32
  el3AArch32 := s.impl.el3AArch32
  hstrEl2T1 := s.hstrEl2T1
  hstrT1 := s.hstrT1
  scrEl3NS := s.ctl.scrEl3NS
  scrEl3EEL2 := s.ctl.scrEl3EEL2

/-- The access check of a state. -/
def State.accessCheck (s : State) : Option Ending := scrAccessCheck s.accessInputs

/-! ### The write to SCR (R62, R64, R66) -/

/-- `NSGuard(v)` (R64). -/
def State.nsGuard (s : State) (v : Word) : Bool :=
  s.hcrTGE && (s.mode != .monitor || s.impl.nsGuardInMonitor) && !field .ns s.scr && field .ns v

/-- `WriteValue(v)` (R62). -/
def State.writeValue (s : State) (v : Word) : Word :=
  let kept := match s.impl.res0Mode with
    | .hardwired => v &&& rwMask s.impl
    | .stored => (v &&& rwMask s.impl) ||| (v &&& res0Mask s.impl)
  if s.nsGuard v then kept &&& 0xFFFFFFFE#32 else kept

/-- A value of SIF joins the set (R66). -/
def SifSet.add (t : SifSet) (v : Bool) : SifSet := ⟨t.has0 || !v, t.has1 || v⟩

/-- The set holds the value. -/
def SifSet.has (t : SifSet) (v : Bool) : Bool := if v then t.has1 else t.has0

/-- The set of one value. -/
def SifSet.only (v : Bool) : SifSet := ⟨!v, v⟩

/-- A value joins `scr_hist` (R66), in ascending order and once. -/
def histAdd (v : Word) : List Word → List Word
  | [] => [v]
  | w :: ws => if v < w then v :: w :: ws else if v = w then w :: ws else w :: histAdd v ws

/-- SCR takes a value, with the side effects of R66 on the hidden state. -/
def setScr (v : Word) (s : State) : State :=
  { s with scr := v, sifTlb := s.sifTlb.add (field .sif v), scrHist := histAdd v s.scrHist }

/-! ### Reset -/

/-- A reset into EL3 using AArch32 (R29, R120, R121): everything the spec gives a value takes it; what it leaves open (the mode,
the registers, the masks, the controls, the reserved bits where they are stored) stays as `s` and `res0` have it. -/
def resetFrom (res0 : Word) (s : State) : State :=
  let scr := match s.impl.res0Mode with
    | .hardwired => 0
    | .stored => res0 &&& res0Mask s.impl
  { s with
    scr := scr
    pc := 0
    sifTlb := .only false
    scrHist := [scr]
    pend := ⟨false, false, false⟩
    waiting := false
    ended := none
    tick := 0 }

end Sys2Proof.Machine
end

