-- ==== Sys2Proof/Machine/Flags.lean ====
section
/-! DEFINITION. The condition check. No instruction of the spec writes a flag and none of the flags is in it (R33): the result of
the check is the input `CondPassed` (R73). -/

namespace Sys2Proof.Machine

/-- The condition that always passes, 0b1110 (R54, R56). -/
def condAlways : BitVec 4 := 14#4

/-- The condition check of an A32 instruction: passed for an always-executed one, the input `CondPassed` for another (R73). -/
def State.condPasses (s : State) (cond : BitVec 4) : Bool := cond == condAlways || s.input.condPassed

/-- The condition check of a T32 WFE or WFI: the input `CondPassed` (R73). The word has no condition field; what may give it a
condition is not in the state (assumption log 12). -/
def State.condPassesT32 (s : State) : Bool := s.input.condPassed

end Sys2Proof.Machine
end

