-- ==== Sys2Proof/Machine/Calls.lean ====
section
/-! DEFINITION. HVC under SCR.HCE (R74, R75) and SMC under SCR.SCD (R76, R77). The immediates are read by no rule (R59). -/

namespace Sys2Proof.Machine

/-- The pseudocode of R74, with R75 first. -/
def hvcState (s : State) : State :=
  if !s.impl.haveEl2 then endWith (.undefined none) s
  else if s.governedEl == .el0 || s.governedSecure then endWith (.undefined none) s
  else if s.governed .hce then endWith .hvcEnabled s
  else if s.governedEl == .el1 then endWith (.undefined none) s
  else if choiceIsNop s.impl.hce0El2Choice s.input.hce0Nop then complete s
  else endWith (.undefined none) s

/-- The pseudocode of R76, with R77 first. -/
def smcState (s : State) : State :=
  if s.governedEl == .el0 then endWith (.undefined none) s
  else if !s.governed .scd then endWith .smcEnabled s
  else if !s.governedSecure then endWith (.undefined (some s.governedEl)) s
  else if choiceIsNop s.impl.scdSecureChoice s.input.scdNop then complete s
  else endWith (.undefined none) s

/-- HVC, A32 (R74). -/
def execHvcA32 (_imm16 : BitVec 16) (s : State) : Result := inConfiguration s (.next (hvcState s))

/-- HVC, T32 (R74): always executed (assumption log 12). -/
def execHvcT32 (_imm16 : BitVec 16) (s : State) : Result := inConfiguration s (.next (hvcState s))

/-- SMC, A32 (R76): one whose condition check fails does nothing and goes on (G14; assumption log 11). -/
def execSmcA32 (cond _imm4 : BitVec 4) (s : State) : Result :=
  inConfiguration s (.next (if s.condPasses cond then smcState s else complete s))

/-- SMC, T32 (R76): always executed (assumption log 12). -/
def execSmcT32 (_imm4 : BitVec 4) (s : State) : Result := inConfiguration s (.next (smcState s))

end Sys2Proof.Machine
end

