-- ==== Sys2Proof/WellFormed.lean ====
section
/-! DEFINITION. Which instructions have a word: the admitted register numbers (R31, R58) and the condition field, any value but
0b1111 (R54, R59). -/

namespace Sys2Proof

/-- A32 admits `t` in 0..14 (R31, R58). -/
def rtOkA32 (rt : BitVec 4) : Bool := rt != 15#4

/-- T32 admits `t` in 0..12 and 14 (R31, R58). -/
def rtOkT32 (rt : BitVec 4) : Bool := rt != 13#4 && rt != 15#4

/-- The condition field of an A32 word is any value but 0b1111 (R54, R59). -/
def condOk (cond : BitVec 4) : Bool := cond != 15#4

/-- An instruction the decoder can give. -/
def Instr.wf : Instr → Bool
  | .mrcA32 cond rt => condOk cond && rtOkA32 rt
  | .mcrA32 cond rt => condOk cond && rtOkA32 rt
  | .mrcT32 rt => rtOkT32 rt
  | .mcrT32 rt => rtOkT32 rt
  | .wfeA32 cond => condOk cond
  | .wfiA32 cond => condOk cond
  | .smcA32 cond _ => condOk cond
  | .hvcA32 _ => true
  | .wfeT16 => true
  | .wfiT16 => true
  | .wfeW => true
  | .wfiW => true
  | .smcT32 _ => true
  | .hvcT32 _ => true

end Sys2Proof
end

