-- ==== Sys2Proof/Machine/Operands.lean ====
section
/-! DEFINITION. The one operand of the spec's instructions: the general register `<Rt>` (R31, R52, R53). -/

namespace Sys2Proof.Machine

/-- `x[t]` (R31). -/
def State.reg (s : State) (t : BitVec 4) : Word := s.x[t.toNat]'t.isLt

/-- `x[t] <- v` (R31). -/
def State.setReg (s : State) (t : BitVec 4) (v : Word) : State := { s with x := s.x.set t.toNat v t.isLt }

end Sys2Proof.Machine
end

