-- ==== Sys2Proof/Machine/Sysreg.lean ====
section
/-! DEFINITION. MRC and MCR of SCR (R61, R63). -/

namespace Sys2Proof.Machine

/-- An access to SCR: the outcome of the access check, or `allowed` where it allows and SCR exists (R2, R60). -/
def scrAccess (s : State) (allowed : State) : Result :=
  match s.accessCheck with
  | some e => .next (endWith e s)
  | none => inConfiguration s (.next allowed)

/-- `MRC_SCR(t)`: `x[t] <- SCR` (R61). -/
def readScr (t : BitVec 4) (s : State) : Result := scrAccess s (complete (s.setReg t s.scr))

/-- `MCR_SCR(t)`: `SCR <- WriteValue(x[t])` and the side effects (R63, R66). -/
def writeScr (t : BitVec 4) (s : State) : Result := scrAccess s (complete (setScr (s.writeValue (s.reg t)) s))

/-- An A32 access is admitted with the condition always (R56) and `t` in 0..14 (R31, R58). -/
def admittedA32 (cond rt : BitVec 4) (r : Result) : Result :=
  if rtOkA32 rt then (if cond == condAlways then r else .refused .conditionalSysregAccess) else .refused .badRt

/-- A T32 access is admitted with `t` in 0..12 and 14 (R31, R58). -/
def admittedT32 (rt : BitVec 4) (r : Result) : Result := if rtOkT32 rt then r else .refused .badRt

/-- MRC of SCR, A32 (R61). -/
def execMrcA32 (cond rt : BitVec 4) (s : State) : Result := admittedA32 cond rt (readScr rt s)

/-- MCR of SCR, A32 (R63). -/
def execMcrA32 (cond rt : BitVec 4) (s : State) : Result := admittedA32 cond rt (writeScr rt s)

/-- MRC of SCR, T32 (R61). -/
def execMrcT32 (rt : BitVec 4) (s : State) : Result := admittedT32 rt (readScr rt s)

/-- MCR of SCR, T32 (R63). -/
def execMcrT32 (rt : BitVec 4) (s : State) : Result := admittedT32 rt (writeScr rt s)

end Sys2Proof.Machine
end

