-- ==== Sys2Proof/Machine/Wait.lean ====
section
/-! DEFINITION. WFE and WFI under SCR.TWE and SCR.TWI (R70 to R73). -/

namespace Sys2Proof.Machine

/-- The field that traps the instruction (R70, R71). -/
def WaitInstr.field : WaitInstr → Field
  | .wfe => .twe
  | .wfi => .twi

/-- `LowerTrapWFE`, `LowerTrapWFI` (R70, R71). -/
def State.lowerTrap (s : State) : WaitInstr → Bool
  | .wfe => s.input.lowerTrapWFE
  | .wfi => s.input.lowerTrapWFI

/-- The trap to Monitor mode applies: the field is 1 and the mode is not Monitor (R70, R71). -/
def State.monitorTrapApplies (s : State) (f : Field) : Bool := s.governed f && s.mode != .monitor

/-- The pseudocode of R70 and R71, in the order of R81. -/
def waitState (i : WaitInstr) (passes : Bool) (s : State) : State :=
  if !passes then complete s
  else if !s.input.wouldSleep then complete s
  else if s.lowerTrap i then endWith (.lowerELTrap i) s
  else if s.monitorTrapApplies i.field then
    (if s.input.trapTaken then endWith (.monitorTrap (.wait i)) s else complete s)
  else waitThenComplete s

/-- A WFE or WFI in the configuration in scope. -/
def waitFor (i : WaitInstr) (passes : Bool) (s : State) : Result := inConfiguration s (.next (waitState i passes s))

/-- WFE, A32 (R70, R73). -/
def execWfeA32 (cond : BitVec 4) (s : State) : Result := waitFor .wfe (s.condPasses cond) s

/-- WFI, A32 (R71, R73). -/
def execWfiA32 (cond : BitVec 4) (s : State) : Result := waitFor .wfi (s.condPasses cond) s

/-- WFE, T32 16-bit (R70, R73; assumption log 12). -/
def execWfeT16 (s : State) : Result := waitFor .wfe s.condPassesT32 s

/-- WFI, T32 16-bit (R71, R73; assumption log 12). -/
def execWfiT16 (s : State) : Result := waitFor .wfi s.condPassesT32 s

/-- WFE.W (R70, R73; assumption log 12). -/
def execWfeW (s : State) : Result := waitFor .wfe s.condPassesT32 s

/-- WFI.W (R71, R73; assumption log 12). -/
def execWfiW (s : State) : Result := waitFor .wfi s.condPassesT32 s

end Sys2Proof.Machine
end

