-- ==== Sys2Proof/Machine/Dispatch.lean ====
section
/-! DEFINITION. The meaning of each instruction, one arm per constructor. -/

namespace Sys2Proof.Machine

def exec (i : Instr) (s : State) : Host.Outcome State Fault Refusal :=
  match i with
  | .mrcA32 cond rt => Sys2Proof.Machine.execMrcA32 cond rt s
  | .mcrA32 cond rt => Sys2Proof.Machine.execMcrA32 cond rt s
  | .mrcT32 rt => Sys2Proof.Machine.execMrcT32 rt s
  | .mcrT32 rt => Sys2Proof.Machine.execMcrT32 rt s
  | .wfeA32 cond => Sys2Proof.Machine.execWfeA32 cond s
  | .wfiA32 cond => Sys2Proof.Machine.execWfiA32 cond s
  | .smcA32 cond imm4 => Sys2Proof.Machine.execSmcA32 cond imm4 s
  | .hvcA32 imm16 => Sys2Proof.Machine.execHvcA32 imm16 s
  | .wfeT16 => Sys2Proof.Machine.execWfeT16 s
  | .wfiT16 => Sys2Proof.Machine.execWfiT16 s
  | .wfeW => Sys2Proof.Machine.execWfeW s
  | .wfiW => Sys2Proof.Machine.execWfiW s
  | .smcT32 imm4 => Sys2Proof.Machine.execSmcT32 imm4 s
  | .hvcT32 imm16 => Sys2Proof.Machine.execHvcT32 imm16 s

end Sys2Proof.Machine
end

