-- ==== Sys2Proof/Machine/ErrorRecord.lean ====
section
/-! DEFINITION. Accesses to the error-record registers under SCR.TERR (R78): the abstract class `ErrAccess(reg, dir)`, which is a
place of the program and has no word (R35, R59; assumption log 17). -/

namespace Sys2Proof.Machine

/-- The registers that exist only with ARMv8.4-RAS (R35, R78). -/
def ErrReg.needsV84 : ErrReg → Bool
  | .erxmisc4 | .erxmisc5 | .erxmisc6 | .erxmisc7 => true
  | .erridr | .errselr | .erxaddr | .erxaddr2 | .erxctlr | .erxctlr2 | .erxfr | .erxfr2 => false
  | .erxmisc0 | .erxmisc1 | .erxmisc2 | .erxmisc3 | .erxstatus => false

/-- The pseudocode of R78, in the order of R81. -/
def execErrAccess (reg : ErrReg) (dir : ErrDir) (s : State) : Result :=
  inConfiguration s
    (if !s.impl.haveRas then .refused .noRAS
    else if ErrReg.needsV84 reg && !s.impl.haveRasV84 then .refused .noRASv84
    else if s.input.errPreempted then .next (endWith (.otherException reg dir) s)
    else if s.monitorTrapApplies .terr then .next (endWith (.monitorTrap (.errAccess reg dir)) s)
    else .next (endWith .errAccessProceeds s))

end Sys2Proof.Machine
end

