-- ==== Sys2Proof/Decode.lean ====
section
/-! DEFINITION. The decoder of 30_encoding.md, total on any words and on any bytes, and after it the encoder, written from the
same tables (R54, R55, R59). The bit placement is the spec's own supply, from general knowledge (G11, G12), and so is
the byte order (G9): assumption log 14. -/

namespace Sys2Proof

/-- Why the decoder gives no instruction (R58). -/
inductive DecodeRefusal where
  | notInScope   -- `refuse(NotInScope)`: a word of no instruction of the spec
  | badRt        -- `refuse(BadRt)`: the SCR encoding with a register number that is not admitted
  | truncated    -- a listing of bytes that ends inside an instruction
  deriving DecidableEq, Repr

/-- A row of the opcode table: the word matches where it has `value` under `mask`. -/
structure Pattern where
  mask : Word
  value : Word
  deriving DecidableEq, Repr

/-- The word has the fixed bits of the row. -/
def Pattern.hits (p : Pattern) (w : Word) : Bool := w &&& p.mask == p.value

/-- MRC of SCR, A32 (R54). -/
def patMrcA32 : Pattern := ⟨0x0FFF0FFF#32, 0x0E110F11#32⟩
/-- MCR of SCR, A32 (R54). -/
def patMcrA32 : Pattern := ⟨0x0FFF0FFF#32, 0x0E010F11#32⟩
/-- WFE, A32 (R59). -/
def patWfeA32 : Pattern := ⟨0x0FFFFFFF#32, 0x0320F002#32⟩
/-- WFI, A32 (R59). -/
def patWfiA32 : Pattern := ⟨0x0FFFFFFF#32, 0x0320F003#32⟩
/-- SMC, A32 (R59). -/
def patSmcA32 : Pattern := ⟨0x0FFFFFF0#32, 0x01600070#32⟩
/-- HVC, A32 (R59): the condition field is fixed. -/
def patHvcA32 : Pattern := ⟨0xFFF000F0#32, 0xE1400070#32⟩
/-- MRC of SCR, T32, read as `hw1 : hw2` (R55). -/
def patMrcT32 : Pattern := ⟨0xFFFF0FFF#32, 0xEE110F11#32⟩
/-- MCR of SCR, T32 (R55). -/
def patMcrT32 : Pattern := ⟨0xFFFF0FFF#32, 0xEE010F11#32⟩
/-- WFE.W (R59). -/
def patWfeW : Pattern := ⟨0xFFFFFFFF#32, 0xF3AF8002#32⟩
/-- WFI.W (R59). -/
def patWfiW : Pattern := ⟨0xFFFFFFFF#32, 0xF3AF8003#32⟩
/-- SMC, T32 (R59). -/
def patSmcT32 : Pattern := ⟨0xFFF0FFFF#32, 0xF7F08000#32⟩
/-- HVC, T32 (R59). -/
def patHvcT32 : Pattern := ⟨0xFFF0F000#32, 0xF7E08000#32⟩

/-- The condition field of an A32 word (R54). -/
def condField (w : Word) : BitVec 4 := w.extractLsb' 28 4

/-- `Rt` of the SCR encoding, at the same place in both sets read as `hw1 : hw2` (R54, R55). -/
def rtField (w : Word) : BitVec 4 := w.extractLsb' 12 4

/-- An SCR access with its register number, or the refusal of R58. -/
def withRt (ok : BitVec 4 → Bool) (w : Word) (mk : BitVec 4 → Instr) : Except DecodeRefusal Instr :=
  if ok (rtField w) then .ok (mk (rtField w)) else .error .badRt

/-- An A32 word (R54, R58, R59). -/
def decodeA32 (w : Word) : Except DecodeRefusal Instr :=
  if patHvcA32.hits w then .ok (.hvcA32 (w.extractLsb' 8 12 ++ w.extractLsb' 0 4))
  else if condOk (condField w) then
    if patMrcA32.hits w then withRt rtOkA32 w (.mrcA32 (condField w))
    else if patMcrA32.hits w then withRt rtOkA32 w (.mcrA32 (condField w))
    else if patWfeA32.hits w then .ok (.wfeA32 (condField w))
    else if patWfiA32.hits w then .ok (.wfiA32 (condField w))
    else if patSmcA32.hits w then .ok (.smcA32 (condField w) (w.extractLsb' 0 4))
    else .error .notInScope
  else .error .notInScope

/-- R57: a T32 instruction is 32 bits when bits 15:11 of its first halfword are 0b11101, 0b11110 or 0b11111. -/
def isWide (hw1 : Half) : Bool :=
  hw1.extractLsb' 11 5 == 0b11101#5 || hw1.extractLsb' 11 5 == 0b11110#5 || hw1.extractLsb' 11 5 == 0b11111#5

/-- A 16-bit T32 instruction (R59). -/
def decodeT16 (hw : Half) : Except DecodeRefusal Instr :=
  if hw == 0xBF20#16 then .ok .wfeT16
  else if hw == 0xBF30#16 then .ok .wfiT16
  else .error .notInScope

/-- A 32-bit T32 instruction read as `hw1 : hw2` (R55, R58, R59). -/
def decodeT32 (w : Word) : Except DecodeRefusal Instr :=
  if patMrcT32.hits w then withRt rtOkT32 w .mrcT32
  else if patMcrT32.hits w then withRt rtOkT32 w .mcrT32
  else if patWfeW.hits w then .ok .wfeW
  else if patWfiW.hits w then .ok .wfiW
  else if patSmcT32.hits w then .ok (.smcT32 (w.extractLsb' 16 4))
  else if patHvcT32.hits w then .ok (.hvcT32 (w.extractLsb' 16 4 ++ w.extractLsb' 0 12))
  else .error .notInScope

/-- What the decoder accepts and what it does with the rest (R58). -/
def decode : CodeWord → Except DecodeRefusal Instr
  | .a32 w => decodeA32 w
  | .t16 hw => if isWide hw then .error .notInScope else decodeT16 hw
  | .t32 hw1 hw2 => if isWide hw1 then decodeT32 (hw1 ++ hw2) else .error .notInScope

/-- A halfword from two bytes, little-endian (R43, G9). -/
def halfOfBytes (b0 b1 : Byte) : Half := b1 ++ b0

/-- The words of the first instruction of a listing of bytes, by the length rule of R57, and the rest of the listing. -/
def codeWordOfBytes (set : InstrSet) (bytes : List Byte) : Except DecodeRefusal (CodeWord × List Byte) :=
  match set, bytes with
  | .a32, b0 :: b1 :: b2 :: b3 :: rest => .ok (.a32 (halfOfBytes b2 b3 ++ halfOfBytes b0 b1), rest)
  | .t32, b0 :: b1 :: rest =>
    if isWide (halfOfBytes b0 b1) then
      match rest with
      | b2 :: b3 :: rest' => .ok (.t32 (halfOfBytes b0 b1) (halfOfBytes b2 b3), rest')
      | _ => .error .truncated
    else .ok (.t16 (halfOfBytes b0 b1), rest)
  | _, _ => .error .truncated

/-- The first instruction of a listing of bytes, and the rest of the listing. -/
def decodeBytes (set : InstrSet) (bytes : List Byte) : Except DecodeRefusal (Instr × List Byte) :=
  match codeWordOfBytes set bytes with
  | .ok (c, rest) =>
    match decode c with
    | .ok i => .ok (i, rest)
    | .error e => .error e
  | .error e => .error e

/-- A halfword as it is stored, little-endian (R43, G9). -/
def bytesOfHalf (hw : Half) : List Byte := [hw.extractLsb' 0 8, hw.extractLsb' 8 8]

/-- An instruction's words as they are stored: an A32 word little-endian, a T32 instruction's halfwords each little-endian, the
first at the lower address (R43, G9). -/
def CodeWord.bytes : CodeWord → List Byte
  | .a32 w => bytesOfHalf (w.extractLsb' 0 16) ++ bytesOfHalf (w.extractLsb' 16 16)
  | .t16 hw => bytesOfHalf hw
  | .t32 hw1 hw2 => bytesOfHalf hw1 ++ bytesOfHalf hw2

/-- The words of an instruction, field by field from the formats of R54, R55 and R59. -/
def encode : Instr → CodeWord
  | .mrcA32 cond rt => .a32 (cond ++ 0xE11#12 ++ rt ++ 0xF11#12)
  | .mcrA32 cond rt => .a32 (cond ++ 0xE01#12 ++ rt ++ 0xF11#12)
  | .mrcT32 rt => .t32 0xEE11#16 (rt ++ 0xF11#12)
  | .mcrT32 rt => .t32 0xEE01#16 (rt ++ 0xF11#12)
  | .wfeA32 cond => .a32 (cond ++ 0x320F002#28)
  | .wfiA32 cond => .a32 (cond ++ 0x320F003#28)
  | .smcA32 cond imm4 => .a32 (cond ++ 0x160007#24 ++ imm4)
  | .hvcA32 imm16 => .a32 (0xE14#12 ++ imm16.extractLsb' 4 12 ++ 0x7#4 ++ imm16.extractLsb' 0 4)
  | .wfeT16 => .t16 0xBF20#16
  | .wfiT16 => .t16 0xBF30#16
  | .wfeW => .t32 0xF3AF#16 0x8002#16
  | .wfiW => .t32 0xF3AF#16 0x8003#16
  | .smcT32 imm4 => .t32 (0xF7F#12 ++ imm4) 0x8000#16
  | .hvcT32 imm16 => .t32 (0xF7E#12 ++ imm16.extractLsb' 12 4) (0x8#4 ++ imm16.extractLsb' 0 12)

/-- The words of a number that spec/opcode_table.json numbers: a 16-bit row is one halfword; a 32-bit row is an A32 word, or
`hw1 : hw2` with `hw1` in bits 31:16. The table does not say the set in the number, so the T32 reading is taken where
it decodes and the A32 reading otherwise (assumption log 15). -/
def codeWordOfTable (nbits w : Nat) : CodeWord :=
  if nbits ≤ 16 then .t16 (BitVec.ofNat 16 w)
  else
    let t := CodeWord.t32 (BitVec.ofNat 16 (w / 65536)) (BitVec.ofNat 16 w)
    match decode t with
    | .ok _ => t
    | .error _ => .a32 (BitVec.ofNat 32 w)

/-- The instruction the decoder reads from the bytes of a number of the opcode table. -/
def decodeTableWord (nbits w : Nat) : Option Instr :=
  let c := codeWordOfTable nbits w
  match decodeBytes c.set c.bytes with
  | .ok (i, _) => some i
  | .error _ => none

end Sys2Proof
end

