-- ==== Sys2Proof/Machine/Fetch.lean ====
section
/-! DEFINITION. Fetching: the place of the program at `pc` (R37), Secure instruction fetch under SIF (R41, R42), the words and
their refusals (R58), and the placing of a word for the next fetch. -/

namespace Sys2Proof.Machine

/-- `sif_eff`: the draw where the TLB may hold it, and the other value otherwise (R42). -/
def State.sifEff (s : State) : Bool := if s.sifTlb.has s.input.sifDraw then s.input.sifDraw else !s.input.sifDraw

/-- The fetch is permitted as far as SCR is concerned (R41); where SCR does not exist it always is. -/
def State.fetchPermitted (s : State) : Bool :=
  !(s.impl.scrExists && s.governedSecure && s.input.ns && s.sifEff)

/-- The place of the program at `pc` (R37). -/
def State.fetched (s : State) : Option ProgItem := s.program[s.pc]?

/-- The refusal of a word the decoder does not accept (R58). -/
def refusalOf : DecodeRefusal → Refusal
  | .notInScope => .notInScope
  | .badRt => .badRt
  | .truncated => .notInScope

/-- The program with an item at a place; places it lacks before that one are filled with the A32 word 0, which is no
instruction of the spec. -/
def placeAt (item : ProgItem) : Nat → List ProgItem → List ProgItem
  | 0, [] => [item]
  | 0, _ :: ps => item :: ps
  | n + 1, [] => .code (.a32 0) :: placeAt item n []
  | n + 1, p :: ps => p :: placeAt item n ps

/-- The inputs with no asynchronous exception taken and an ordinary fetch in the next step. -/
def fetchInputs : List StepInput → List StepInput
  | [] => [.quiet]
  | i :: is => { i with take := none, ns := false } :: is

/-- The state with an item placed where the next step fetches it, and nothing that would keep the step from it: the run has not
ended, nothing waits, no asynchronous exception is taken first, the fetch is not from Non-secure memory. -/
def State.withItem (s : State) (item : ProgItem) : State :=
  { s with
    program := placeAt item s.pc s.program
    env := fetchInputs s.env
    waiting := false
    ended := none }

end Sys2Proof.Machine
end

