-- ==== Sys2Proof/Machine/Interrupts.lean ====
section
/-! DEFINITION. IRQ, FIQ and External abort: pending, masking, routing, and the asynchronous step (R38, R95 to R99, D38). -/

namespace Sys2Proof.Machine

/-- The kind is pending (R38). -/
def State.isPending (s : State) : Async → Bool
  | .irq => s.pend.irq
  | .fiq => s.pend.fiq
  | .ea => s.pend.ea

/-- `RouteIRQ()`, `RouteFIQ()`, `RouteEA()` (R95, R96, R97). -/
def State.route (s : State) : Async → Mode
  | .irq => if s.governed .irq then .monitor else if s.input.hypRouteIRQ then .hyp else .irq
  | .fiq => if s.governed .fiq then .monitor else if s.input.hypRouteFIQ then .hyp else .fiq
  | .ea => if s.governed .ea then .monitor else if s.input.hypRouteEA then .hyp else .abort

/-- `FIQMasked()` (R98), `EAMasked()` (R99), `MASK_I` (R95). Where SCR does not exist (R2) no bit of it is read, and what masks is
`MASK_OTHER_F` and `MASK_OTHER_A` (DEDUCED: assumption log 18). -/
def State.masked (s : State) : Async → Bool
  | .irq => s.input.maskI
  | .fiq =>
    if s.impl.scrExists && s.governed .fiq && !s.hcrFMO then
      (if !s.governed .fw && !s.governedSecure then false else s.cpsrF)
    else s.input.maskOtherF
  | .ea =>
    if s.impl.scrExists && s.governed .ea && !s.hcrAMO then
      (if !s.governed .aw && !s.governedSecure then false else s.cpsrA)
    else s.input.maskOtherA

/-- The outcome record of an asynchronous exception (R90). -/
def takenEnding (k : Async) (mode : Mode) : Ending :=
  match k with
  | .irq => .takeIRQ mode
  | .fiq => .takeFIQ mode
  | .ea => .takeExternalAbort mode

/-- The pending exceptions without the kind that is taken (R38). -/
def Pend.clear (p : Pend) : Async → Pend
  | .irq => { p with irq := false }
  | .fiq => { p with fiq := false }
  | .ea => { p with ea := false }

/-- Taking a pending exception: it is no longer pending, and the run ends with its outcome record (R38, R95 to R97, R101). -/
def takeAsync (k : Async) (s : State) : State := { endWith (takenEnding k (s.route k)) s with pend := s.pend.clear k }

/-- The asynchronous exception the scheduler takes in this step, if it is pending and not masked (D38). -/
def State.asyncTaken (s : State) : Option Async :=
  match s.input.take with
  | none => none
  | some k => if s.isPending k && !s.masked k then some k else none

/-- The environment's part of a step: it sets pending bits and never clears one (R38, D38). -/
def State.pendAfter (s : State) : Pend :=
  ⟨s.pend.irq || s.input.assertIRQ, s.pend.fiq || s.input.assertFIQ, s.pend.ea || s.input.assertEA⟩

/-- What happens before the PE acts in a step: the TLB forgets at the steps of `TLB_FLUSHED_AT` (R42), and the environment makes
exceptions pending (D38). -/
def arrive (s : State) : State :=
  { s with
    sifTlb := if s.impl.tlbFlushedAt.contains s.tick then .only (field .sif s.scr) else s.sifTlb
    pend := s.pendAfter }

/-- A step is over: the next input, the next number. -/
def endStep (s : State) : State := { s with env := s.env.tail, tick := s.tick + 1 }

end Sys2Proof.Machine
end

