-- ==== Sys2Proof/Machine/Step.lean ====
section
/-! DEFINITION. One step of the machine (R37, R90, D30, D37, D38). -/

namespace Sys2Proof.Machine

/-- What is at a place of the program is run: an instruction's words are decoded, the abstract access has its own meaning. -/
def runItem (item : ProgItem) (s : State) : Host.Outcome State Fault Refusal :=
  match item with
  | .code c =>
    match decode c with
    | .ok i => exec i s
    | .error r => .refused (refusalOf r)
  | .errAccess reg dir => execErrAccess reg dir s

/-- The PE fetches and runs the place at `pc` (R37), where the fetch is permitted (R41); past the last one the run is over (D37). -/
def fetchAndRun (s : State) : Host.Outcome State Fault Refusal :=
  match s.fetched with
  | none => .fault .programEnd
  | some item => if s.fetchPermitted then runItem item s else .next (endWith (.fetchNotPermitted s.pc) s)

/-- What the PE does in a step, after the environment: a wait goes on (R72); between instructions, an enabled asynchronous
exception is taken if the scheduler takes it (R95 to R99, D38); otherwise the PE fetches and runs. -/
def act (s : State) : Host.Outcome State Fault Refusal :=
  if s.waiting then .next (waitThenComplete s)
  else
    match s.asyncTaken with
    | some k => inConfiguration s (.next (takeAsync k s))
    | none => fetchAndRun s

/-- One step. A run that has ended takes no further step (R101). -/
def step (s : State) : Host.Outcome State Fault Refusal :=
  if s.ended.isSome then .fault .runEnded else onNext endStep (act (arrive s))

/-- The instruction of a number of the opcode table placed where the next step fetches it. -/
def State.withFetchWord (s : State) (nbits w : Nat) : State := s.withItem (.code (codeWordOfTable nbits w))

end Sys2Proof.Machine
end

