-- ==== Sys2Proof/Safety.lean ====
section
/-! DEFINITION. What claims are stated in: the states a run can be in, the end that went well, and which instruction reads or
writes SCR. -/

namespace Sys2Proof

/-- The register an MRC of SCR writes (R61). -/
def Instr.mrcRt : Instr → Option (BitVec 4)
  | .mrcA32 _ rt => some rt
  | .mcrA32 _ _ => none
  | .mrcT32 rt => some rt
  | .mcrT32 _ => none
  | .wfeA32 _ => none
  | .wfiA32 _ => none
  | .smcA32 _ _ => none
  | .hvcA32 _ => none
  | .wfeT16 => none
  | .wfiT16 => none
  | .wfeW => none
  | .wfiW => none
  | .smcT32 _ => none
  | .hvcT32 _ => none

/-- The register an MCR of SCR reads (R63). -/
def Instr.mcrRt : Instr → Option (BitVec 4)
  | .mrcA32 _ _ => none
  | .mcrA32 _ rt => some rt
  | .mrcT32 _ => none
  | .mcrT32 rt => some rt
  | .wfeA32 _ => none
  | .wfiA32 _ => none
  | .smcA32 _ _ => none
  | .hvcA32 _ => none
  | .wfeT16 => none
  | .wfiT16 => none
  | .wfeW => none
  | .wfiW => none
  | .smcT32 _ => none
  | .hvcT32 _ => none

/-- An instruction whose form the meanings admit: an A32 MRC or MCR is executed always (R56). -/
def Instr.admitted : Instr → Bool
  | .mrcA32 cond rt => cond == Machine.condAlways && rtOkA32 rt
  | .mcrA32 cond rt => cond == Machine.condAlways && rtOkA32 rt
  | .mrcT32 rt => rtOkT32 rt
  | .mcrT32 rt => rtOkT32 rt
  | .wfeA32 cond => condOk cond
  | .wfiA32 cond => condOk cond
  | .smcA32 cond _ => condOk cond
  | .hvcA32 _ => true
  | .wfeT16 => true
  | .wfiT16 => true
  | .wfeW => true
  | .wfiW => true
  | .smcT32 _ => true
  | .hvcT32 _ => true

/-- Which of the two waiting instructions an instruction is (R70, R71). -/
def Instr.waitOf : Instr → Option Machine.WaitInstr
  | .mrcA32 _ _ => none
  | .mcrA32 _ _ => none
  | .mrcT32 _ => none
  | .mcrT32 _ => none
  | .wfeA32 _ => some .wfe
  | .wfiA32 _ => some .wfi
  | .smcA32 _ _ => none
  | .hvcA32 _ => none
  | .wfeT16 => some .wfe
  | .wfiT16 => some .wfi
  | .wfeW => some .wfe
  | .wfiW => some .wfi
  | .smcT32 _ => none
  | .hvcT32 _ => none

/-- The instruction passes its condition code check (R73): an A32 one with the condition always does; for another A32 condition and
for a T32 WFE or WFI the check is the input `CondPassed` (assumption log 12); the others have no check. -/
def Instr.passes (i : Instr) (s : Machine.State) : Bool :=
  match i with
  | .mrcA32 cond _ => s.condPasses cond
  | .mcrA32 cond _ => s.condPasses cond
  | .mrcT32 _ => true
  | .mcrT32 _ => true
  | .wfeA32 cond => s.condPasses cond
  | .wfiA32 cond => s.condPasses cond
  | .smcA32 cond _ => s.condPasses cond
  | .hvcA32 _ => true
  | .wfeT16 => s.condPassesT32
  | .wfiT16 => s.condPassesT32
  | .wfeW => s.condPassesT32
  | .wfiW => s.condPassesT32
  | .smcT32 _ => true
  | .hvcT32 _ => true

namespace Machine

/-- What holds of every state of a run (R2, R4, R28, R36, R48, R72, R103, D37). -/
structure State.Inv (s : State) : Prop where
  /-- `HAVE_RAS_V8_4` implies `HAVE_RAS` (R4). -/
  rasOptions : s.impl.haveRasV84 = true → s.impl.haveRas = true
  /-- Monitor mode is the mode of an EL3 that uses AArch32 (R103). -/
  monitorMode : s.mode = .monitor → s.impl.scrExists = true
  /-- Hyp mode is Non-secure only (R103): NS is 1 in every value SCR has held, so under every draw of R48. -/
  hypMode : s.mode = .hyp → ∀ v ∈ s.scrHist, field .ns v = true
  /-- The TLB may hold the current value of SIF (R36). -/
  sifCurrent : s.sifTlb.has (field .sif s.scr) = true
  /-- SCR has held its current value (R48). -/
  histCurrent : s.scr ∈ s.scrHist
  /-- `scr_hist` is in its one form: ascending, so with no repeats. -/
  histAscending : s.scrHist.Pairwise (· < ·)
  /-- Hardwired reserved bits are 0 in every value SCR has held (R28). -/
  res0Hardwired : s.impl.res0Mode = .hardwired → ∀ v ∈ s.scrHist, v &&& res0Mask s.impl = 0
  /-- `pc` is a place of the program, or just past the last one (R37, D37). -/
  pcInProgram : s.pc ≤ s.program.length
  /-- Only an instruction of a run that has not ended waits (R72). -/
  waitingInProgram : s.waiting = true → s.ended = none ∧ s.pc < s.program.length

/-- The end that went well: `pc` has passed the last word and no outcome of R90 ended the run (R90, D37). -/
def State.FinishedWell (s : State) : Prop := s.ended = none ∧ s.waiting = false ∧ s.program.length ≤ s.pc

/-- What no step changes: the implementation, the mode, the masks, the controls, the program text (R4, R32 to R34, D14). -/
structure State.SameFixed (s t : State) : Prop where
  impl : t.impl = s.impl
  mode : t.mode = s.mode
  cpsrA : t.cpsrA = s.cpsrA
  cpsrF : t.cpsrF = s.cpsrF
  ctl : t.ctl = s.ctl
  program : t.program = s.program

end Machine
end Sys2Proof
end

