-- ==== Sys2Proof/Certificates/Slice0/Obligations.lean ====
section
/-! DEFINITION. The statements for the provers. -/

open Sys2Proof Sys2Proof.Machine

/-! ### Encoding -/

/-- Decode and encode agree: the words of a well-formed instruction decode to it (R54, R55, R59). The places of the bits are
the spec's supply from general knowledge (G11, G12; assumption log 14). -/
def Obligations.DecodeOfEncodeIsTheInstruction : Prop :=
  ∀ i : Instr, i.wf = true → decode (encode i) = .ok i

/-- Encode and decode agree: what decodes is well formed, and its words are the ones decoded (R54, R55, R58, R59; assumption
log 14). -/
def Obligations.EncodeOfDecodeIsTheWord : Prop :=
  ∀ (c : CodeWord) (i : Instr), decode c = .ok i → i.wf = true ∧ encode i = c

/-- A listing that begins with the stored bytes of an instruction decodes to it, and leaves the rest (R43, R57). The byte
order is the spec's supply from general knowledge (G9; assumption log 14). -/
def Obligations.StoredBytesDecode : Prop :=
  ∀ (i : Instr) (rest : List Byte), i.wf = true → decodeBytes i.set ((encode i).bytes ++ rest) = .ok (i, rest)

/-- Words written out from the formats of R54, R55 and R59 decode to the instructions they stand for (95_test_vectors.md 2.7).
-/
def Obligations.SpecWordsDecode : Prop :=
  decode (.a32 0xEE110F11) = .ok (.mrcA32 14 0) ∧ decode (.a32 0xEE01CF11) = .ok (.mcrA32 14 12) ∧
  decode (.t32 0xEE11 0x2F11) = .ok (.mrcT32 2) ∧ decode (.t32 0xEE01 0xEF11) = .ok (.mcrT32 14) ∧
  decode (.a32 0xE320F002) = .ok (.wfeA32 14) ∧ decode (.a32 0x1320F003) = .ok (.wfiA32 1) ∧
  decode (.a32 0xE160007F) = .ok (.smcA32 14 15) ∧ decode (.a32 0xE14FFF7F) = .ok (.hvcA32 0xFFFF) ∧
  decode (.t16 0xBF20) = .ok .wfeT16 ∧ decode (.t16 0xBF30) = .ok .wfiT16 ∧
  decode (.t32 0xF3AF 0x8002) = .ok .wfeW ∧ decode (.t32 0xF3AF 0x8003) = .ok .wfiW ∧
  decode (.t32 0xF7F0 0x8000) = .ok (.smcT32 0) ∧ decode (.t32 0xF7E0 0x8000) = .ok (.hvcT32 0) ∧
  decode (.a32 0xEE110F10) = .error .notInScope ∧ decode (.a32 0xEE11FF11) = .error .badRt

/-- What the decoder does with the rest (R54, R57, R58, the decisions D6 and D17): an A32 word with condition 0b1111 is none
of these instructions; the SCR encoding with register 15, in T32 with 13 or 15, is refused as a bad register; a first halfword
decides the length. -/
def Obligations.OtherWordsAreRefusedByName : Prop :=
  (∀ w : Word, w.extractLsb' 28 4 = 15#4 → decode (.a32 w) = .error .notInScope) ∧
  (∀ cond : BitVec 4, cond ≠ 15#4 →
    decode (.a32 (cond ++ 0xE11#12 ++ 15#4 ++ 0xF11#12)) = .error .badRt ∧
    decode (.a32 (cond ++ 0xE01#12 ++ 15#4 ++ 0xF11#12)) = .error .badRt) ∧
  (∀ rt : BitVec 4, rt = 13#4 ∨ rt = 15#4 →
    decode (.t32 0xEE11#16 (rt ++ 0xF11#12)) = .error .badRt ∧
    decode (.t32 0xEE01#16 (rt ++ 0xF11#12)) = .error .badRt) ∧
  (∀ hw : Half, isWide hw = true → decode (.t16 hw) = .error .notInScope) ∧
  (∀ hw1 hw2 : Half, isWide hw1 = false → decode (.t32 hw1 hw2) = .error .notInScope)

/-! ### Steps -/

/-- A step whose place at `pc` decodes to `i` runs `i`: the environment sets pending bits (and the TLB forgets at the steps of
`TLB_FLUSHED_AT`), then `exec i`, then the input and the step number move on (R37, R38, R42, D38; the order within a step is
the model's: assumption log 35). -/
def Obligations.StepRunsTheDecodedInstruction : Prop :=
  ∀ (s : State) (c : CodeWord) (i : Instr),
    s.ended = none → s.waiting = false → (arrive s).asyncTaken = none → (arrive s).fetchPermitted = true →
    s.program[s.pc]? = some (.code c) → decode c = .ok i →
    step s =
      onNext (fun t => { t with env := t.env.tail, tick := t.tick + 1 })
        (exec i
          { s with
            sifTlb := if s.impl.tlbFlushedAt.contains s.tick then SifSet.only (field .sif s.scr) else s.sifTlb
            pend := ⟨s.pend.irq || s.input.assertIRQ, s.pend.fiq || s.input.assertFIQ, s.pend.ea || s.input.assertEA⟩ })

/-- A run that has ended takes no further step, and one whose `pc` has passed the last word is over (R101, D37). That the step
answers a fault there is the model's choice (assumption log 28). -/
def Obligations.StepStopsWhereTheRunIsOver : Prop :=
  (∀ (s : State) (e : Ending), s.ended = some e → step s = .fault .runEnded) ∧
  (∀ s : State, s.ended = none → s.waiting = false → (arrive s).asyncTaken = none → s.program.length ≤ s.pc →
    step s = .fault .programEnd)

/-- Between instructions, a pending exception that is not masked and that the scheduler takes ends the run with its record: it
is no longer pending, and SCR, the registers and `pc` are unchanged; the record names the mode of its route (R38, R90, R95 to
R97, R101, D38). -/
def Obligations.StepTakesAnEnabledException : Prop :=
  ∀ (s : State) (k : Async),
    s.ended = none → s.waiting = false → s.impl.scrExists = true → s.input.take = some k →
    (arrive s).isPending k = true → (arrive s).masked k = false →
    step s =
      .next
        { s with
          sifTlb := if s.impl.tlbFlushedAt.contains s.tick then SifSet.only (field .sif s.scr) else s.sifTlb
          pend := (arrive s).pend.clear k
          ended := some (takenEnding k (s.route k))
          env := s.env.tail
          tick := s.tick + 1 }

/-- A pending exception stays pending while it is masked or not taken, and one the environment asserts becomes pending: a step
clears a kind only by ending the run with that kind's record (R38, R98, R99, D38). -/
def Obligations.PendingUntilTaken : Prop :=
  ∀ (s t : State) (k : Async), step s = .next t → (arrive s).isPending k = true →
    t.isPending k = true ∨ ∃ m, t.ended = some (takenEnding k m)

/-- R41: in Secure state a fetch from Non-secure memory with the effective SIF 1 is not permitted and ends the run; every
other fetch runs the place fetched. That the run ends so is the spec's decision D25. -/
def Obligations.SecureFetchUnderSif : Prop :=
  ∀ (s : State) (item : ProgItem),
    s.ended = none → s.waiting = false → s.impl.scrExists = true → (arrive s).asyncTaken = none →
    s.program[s.pc]? = some item →
    (s.governedSecure = true → s.input.ns = true → (arrive s).sifEff = true →
      step s = .next (endStep (endWith (.fetchNotPermitted s.pc) (arrive s)))) ∧
    (s.governedSecure = false ∨ s.input.ns = false ∨ (arrive s).sifEff = false →
      step s = onNext endStep (runItem item (arrive s)))

/-- R42 (the decision D26): the effective SIF is a value the TLB may hold, and any value it may hold can be drawn. -/
def Obligations.EffectiveSifIsHeld : Prop :=
  ∀ s : State, (s.sifTlb.has true = true ∨ s.sifTlb.has false = true) →
    s.sifTlb.has s.sifEff = true ∧
    ∀ b : Bool, s.sifTlb.has b = true → s.input.sifDraw = b → s.sifEff = b

/-- R36, R42: outside the steps of `TLB_FLUSHED_AT` the TLB forgets no value of SIF. -/
def Obligations.SifTlbNeverShrinks : Prop :=
  ∀ (s t : State) (b : Bool), step s = .next t → s.tick ∉ s.impl.tlbFlushedAt →
    s.sifTlb.has b = true → t.sifTlb.has b = true

/-! ### The invariant and reset -/

/-- Every step keeps the invariant, from every state that meets it. -/
def Obligations.StepKeepsTheInvariant : Prop :=
  ∀ s t : State, s.Inv → step s = .next t → t.Inv

/-- The reset state meets the invariant. -/
def Obligations.ResetMeetsTheInvariant : Prop := State.reset.Inv

/-- A reset of any implementation, into any mode but Hyp, with any value of what the spec leaves open, meets the invariant. -/
def Obligations.EveryResetMeetsTheInvariant : Prop :=
  ∀ (s : State) (res0 : Word),
    (s.impl.haveRasV84 = true → s.impl.haveRas = true) → (s.mode = .monitor → s.impl.scrExists = true) → s.mode ≠ .hyp →
    (resetFrom res0 s).Inv

/-- R29, R120: after a reset of any implementation every named field is 0 (so is SCR where reserved bits are hardwired, D3),
`sif_tlb` is {0} and `scr_hist` {SCR} (D26, D37), nothing is pending, waits or has ended, `pc` is 0 (D13), and in a PL1 mode
the PE is Secure and at EL3. The interface's reset state is such a reset: with the implementation, the mode, the masks and the
controls of assumption logs 2 and 3 its SCR is 0, and it is Secure and at EL3. -/
def Obligations.ResetLeavesTheNamedFieldsZero : Prop :=
  (∀ (s : State) (res0 : Word),
    (resetFrom res0 s).scr &&& rwMask s.impl = 0 ∧
    (s.impl.res0Mode = .hardwired → (resetFrom res0 s).scr = 0) ∧
    (resetFrom res0 s).sifTlb = ⟨true, false⟩ ∧
    (resetFrom res0 s).scrHist = [(resetFrom res0 s).scr] ∧
    (resetFrom res0 s).pend = ⟨false, false, false⟩ ∧
    (resetFrom res0 s).pc = 0 ∧ (resetFrom res0 s).waiting = false ∧ (resetFrom res0 s).ended = none ∧
    (s.impl.scrExists = true → s.mode ≠ .user → s.mode ≠ .hyp →
      (resetFrom res0 s).isSecure = true ∧ (resetFrom res0 s).el = .el3)) ∧
  State.reset = resetFrom 0 State.reset ∧
  State.reset.scr = 0 ∧ State.reset.scrHist = [0] ∧ State.reset.isSecure = true ∧ State.reset.el = .el3

/-! ### The access check -/

/-- R60: the arms of the access check in the order written, and what they reduce to where SCR exists (by the decision D18). -/
def Obligations.AccessCheckArms : Prop :=
  (∀ a : AccessInputs,
    (a.el = .el0 → scrAccessCheck a = some (.undefined none)) ∧
    (a.el = .el2 → scrAccessCheck a = some (.undefined none)) ∧
    (a.el = .el3 → scrAccessCheck a = none) ∧
    (a.el = .el1 →
      (a.el2Enabled = true → a.el2AArch32 = false → a.hstrEl2T1 = true →
        scrAccessCheck a = some (.systemAccessTrapA64 .el2 3)) ∧
      (a.el2Enabled = true → a.el2AArch32 = true → a.hstrT1 = true → scrAccessCheck a = some (.hypTrap 3)) ∧
      (a.el2Enabled = false ∨ a.hstrEl2T1 = false → a.el2AArch32 = false → a.scrEl3NS = false → a.scrEl3EEL2 = true →
        scrAccessCheck a = some (.systemAccessTrapA64 .el2 3)) ∧
      (a.el2AArch32 = false → a.el2Enabled = false ∨ a.hstrEl2T1 = false → a.scrEl3EEL2 = false → a.el3AArch32 = false →
        a.scrEl3NS = false → scrAccessCheck a = some (.systemAccessTrapA64 .el3 3)) ∧
      (a.el2AArch32 = true → a.el2Enabled = false ∨ a.hstrT1 = false → a.el3AArch32 = false → a.scrEl3NS = false →
        scrAccessCheck a = some (.systemAccessTrapA64 .el3 3)) ∧
      (a.el2AArch32 = false → a.el2Enabled = false ∨ a.hstrEl2T1 = false →
        a.scrEl3NS = true ∨ (a.scrEl3EEL2 = false ∧ a.el3AArch32 = true) → scrAccessCheck a = some (.undefined none)) ∧
      (a.el2AArch32 = true → a.el2Enabled = false ∨ a.hstrT1 = false → a.el3AArch32 = true ∨ a.scrEl3NS = true →
        scrAccessCheck a = some (.undefined none)))) ∧
  (∀ s : State, s.impl.scrExists = true →
    s.accessCheck =
      match s.el with
      | .el0 => some (.undefined none)
      | .el1 => if s.el2Enabled && s.hstrT1 then some (.hypTrap 3) else some (.undefined none)
      | .el2 => some (.undefined none)
      | .el3 => none)

/-- The access check mode by mode, where SCR exists (R60, R65, R103; 95_test_vectors.md 2.5): allowed in Monitor mode and in
the other PL1 modes while NS is 0; elsewhere UNDEFINED, but for a Hyp trap from a Non-secure PL1 mode under HSTR.T1. The
helpers are those of D18, the levels those of D31. -/
def Obligations.AccessCheckByMode : Prop :=
  ∀ s : State, s.impl.scrExists = true →
    (s.mode = .user ∨ s.mode = .hyp → s.accessCheck = some (.undefined none)) ∧
    (s.mode = .monitor → s.accessCheck = none) ∧
    (s.mode ≠ .user → s.mode ≠ .hyp → s.mode ≠ .monitor →
      s.accessCheck =
        if field .ns s.scr then
          (if s.impl.haveEl2 && s.ctl.hstrT1 then some (.hypTrap 3) else some (.undefined none))
        else none)

/-- R2: where SCR does not exist, every access to its encoding ends the run by an arm of the check that does not reach the
register; every other instruction is refused, by name (the decision D1; assumption log 18). -/
def Obligations.NoScrNoAccess : Prop :=
  ∀ (s : State) (i : Instr), s.impl.scrExists = false → s.mode ≠ .monitor → i.admitted = true →
    (i.mrcRt ≠ none ∨ i.mcrRt ≠ none →
      ∃ e, s.accessCheck = some e ∧ exec i s = .next { s with ended := some e }) ∧
    (i.mrcRt = none → i.mcrRt = none → exec i s = .refused .configurationRefused)

/-- R30, R103 (Monitor mode Secure by D19, the levels by D31): the Security state and the Exception level of each mode, where
SCR exists. -/
def Obligations.SecurityStateAndLevel : Prop :=
  ∀ s : State, s.impl.scrExists = true →
    (s.isSecure = true ↔ s.mode = .monitor ∨ field .ns s.scr = false) ∧
    (s.mode = .user → s.el = .el0) ∧ (s.mode = .hyp → s.el = .el2) ∧ (s.mode = .monitor → s.el = .el3) ∧
    (s.mode ≠ .user → s.mode ≠ .hyp → s.mode ≠ .monitor → s.el = if field .ns s.scr then .el1 else .el3)

/-- R48, R66, R103 (D12, D31): in a state that meets the invariant, Hyp mode is Non-secure and at EL2 under every draw. -/
def Obligations.HypIsNonSecureUnderEveryDraw : Prop :=
  ∀ s : State, s.Inv → s.mode = .hyp → s.governedSecure = false ∧ s.governedEl = .el2

/-! ### MRC and MCR -/

/-- R61 (that the value goes to `x[t]` is D4): at EL3 an MRC of SCR writes the whole register to `x[t]` and goes on; nothing
else changes. -/
def Obligations.MrcReadsScr : Prop :=
  ∀ (s : State) (rt : BitVec 4), s.impl.scrExists = true → s.el = .el3 →
    (rtOkA32 rt = true →
      exec (.mrcA32 14#4 rt) s =
        .next { s with x := s.x.set rt.toNat s.scr rt.isLt, pc := s.pc + 1, waiting := false }) ∧
    (rtOkT32 rt = true →
      exec (.mrcT32 rt) s =
        .next { s with x := s.x.set rt.toNat s.scr rt.isLt, pc := s.pc + 1, waiting := false })

/-- R63, R66: at EL3 an MCR of SCR leaves `WriteValue(x[t])` in SCR, its SIF joins `sif_tlb`, its value joins `scr_hist`, and
it goes on; nothing else changes. -/
def Obligations.McrWritesScr : Prop :=
  ∀ (s : State) (rt : BitVec 4), s.impl.scrExists = true → s.el = .el3 →
    ∃ t : State,
      (rtOkA32 rt = true → exec (.mcrA32 14#4 rt) s = .next t) ∧
      (rtOkT32 rt = true → exec (.mcrT32 rt) s = .next t) ∧
      t = { s with scr := t.scr, sifTlb := t.sifTlb, scrHist := t.scrHist, pc := s.pc + 1, waiting := false } ∧
      t.scr = s.writeValue (s.reg rt) ∧
      (∀ b, t.sifTlb.has b = true ↔ s.sifTlb.has b = true ∨ b = field .sif t.scr) ∧
      (∀ v, v ∈ t.scrHist ↔ v ∈ s.scrHist ∨ v = t.scr)

/-- R60, R61, R63: below EL3 an admitted access ends the run with the outcome of the check; nothing is written. -/
def Obligations.AccessBelowEl3EndsTheRun : Prop :=
  ∀ (s : State) (i : Instr), i.admitted = true → (i.mrcRt ≠ none ∨ i.mcrRt ≠ none) → s.el ≠ .el3 →
    ∃ e, s.accessCheck = some e ∧ exec i s = .next { s with ended := some e }

/-- R56, R58 (the decisions D5 and D6): an A32 access with a condition other than always, and an access with a register number
that is not admitted, stop by name. -/
def Obligations.UnadmittedAccessesStop : Prop :=
  ∀ (s : State) (cond rt : BitVec 4),
    (rtOkA32 rt = true → cond ≠ 14#4 →
      exec (.mrcA32 cond rt) s = .refused .conditionalSysregAccess ∧
      exec (.mcrA32 cond rt) s = .refused .conditionalSysregAccess) ∧
    (rt = 15#4 → exec (.mrcA32 cond rt) s = .refused .badRt ∧ exec (.mcrA32 cond rt) s = .refused .badRt) ∧
    (rt = 13#4 ∨ rt = 15#4 → exec (.mrcT32 rt) s = .refused .badRt ∧ exec (.mcrT32 rt) s = .refused .badRt)

/-- R62: bit by bit, the value an allowed write leaves. The bits that are RW on every implementation, and TERR, HCE, nET where
the implementation has the feature, take the bit written; a reserved bit is kept only where it is stored (the decision D2,
general knowledge the spec supplies: assumption log 21); bit 0 is 0 under the guard of R64, in the reading of D22 (assumption
log 24). -/
def Obligations.WriteValueBits : Prop :=
  ∀ (s : State) (v : Word) (i : Nat), i < 32 →
    (s.writeValue v).getLsbD i =
      (v.getLsbD i &&
        (decide (i ∈ [0, 1, 2, 3, 4, 5, 7, 9, 12, 13]) || (decide (i = 15) && s.impl.haveRas)
          || (decide (i = 8) && s.impl.haveEl2) || (decide (i = 6) && s.impl.haveNet)
          || decide (s.impl.res0Mode = .stored)) &&
        !(decide (i = 0) && s.nsGuard v))

/-- R11: the writable mask of each implementation (95_test_vectors.md 2.2). -/
def Obligations.WritableMaskOfEachImplementation : Prop :=
  ∀ m : Impl,
    rwMask m =
      match m.haveRas, m.haveEl2, m.haveNet with
      | false, false, false => 0x000032BF#32
      | false, false, true => 0x000032FF#32
      | false, true, false => 0x000033BF#32
      | false, true, true => 0x000033FF#32
      | true, false, false => 0x0000B2BF#32
      | true, false, true => 0x0000B2FF#32
      | true, true, false => 0x0000B3BF#32
      | true, true, true => 0x0000B3FF#32

/-- R64, in the reading of the decision D22: the NS bit an MCR leaves. It is held at 0 where HCR.TGE is set (never without
EL2), the mode is not Monitor (or `NS_GUARD_IN_MONITOR`), NS was 0 and 1 is written; otherwise it is the bit written. The
other bits of the same write go through, and the instruction completes. -/
def Obligations.NsGuardHoldsNsAtZero : Prop :=
  ∀ (s : State) (rt : BitVec 4), s.impl.scrExists = true → s.el = .el3 →
    ∃ t : State,
      (rtOkA32 rt = true → exec (.mcrA32 14#4 rt) s = .next t) ∧
      (rtOkT32 rt = true → exec (.mcrT32 rt) s = .next t) ∧
      t.pc = s.pc + 1 ∧ t.ended = s.ended ∧
      field .ns t.scr =
        (field .ns (s.reg rt) &&
          !(s.impl.haveEl2 && s.ctl.hcrTGE && (decide (s.mode ≠ .monitor) || s.impl.nsGuardInMonitor)
            && !field .ns s.scr)) ∧
      (∀ i, 0 < i → i < 32 → (rwMask s.impl).getLsbD i = true → t.scr.getLsbD i = (s.reg rt).getLsbD i)

/-- R63: writing back the value just read changes nothing but `pc`, in every state of a run. -/
def Obligations.WriteBackChangesNothing : Prop :=
  ∀ (s : State) (rt : BitVec 4), s.Inv → s.impl.scrExists = true → s.el = .el3 → s.reg rt = s.scr →
    (rtOkA32 rt = true → exec (.mcrA32 14#4 rt) s = .next { s with pc := s.pc + 1, waiting := false }) ∧
    (rtOkT32 rt = true → exec (.mcrT32 rt) s = .next { s with pc := s.pc + 1, waiting := false })

/-- R47, R48: in Monitor mode an MRC after an MCR returns the value the MCR left, under both synchronisation models. -/
def Obligations.ReadAfterWrite : Prop :=
  ∀ (s : State) (rt ru : BitVec 4), s.impl.scrExists = true → s.mode = .monitor → rtOkA32 rt = true → rtOkA32 ru = true →
    ∃ t u : State, exec (.mcrA32 14#4 rt) s = .next t ∧ exec (.mrcA32 14#4 ru) t = .next u ∧
      u.reg ru = s.writeValue (s.reg rt) ∧ u.scr = t.scr ∧ ∀ r, r ≠ ru → u.reg r = s.reg r

/-- R66, R103, R104 (the levels of D31, Monitor mode Secure by D19): writing NS = 1 from a Secure PL1 mode other than Monitor,
with HCR.TGE clear, moves the PE to Non-secure state and EL1 in the same mode, so that the next access to SCR ends the run; in
Monitor mode the PE stays Secure and at EL3. -/
def Obligations.WritingNsLeavesSecureState : Prop :=
  ∀ (s : State) (rt : BitVec 4), s.impl.scrExists = true → rtOkA32 rt = true → field .ns (s.reg rt) = true →
    (s.mode ≠ .user → s.mode ≠ .hyp → s.mode ≠ .monitor → field .ns s.scr = false → s.hcrTGE = false →
      ∃ t : State, exec (.mcrA32 14#4 rt) s = .next t ∧ t.mode = s.mode ∧ t.isSecure = false ∧ t.el = .el1 ∧
        ∀ i : Instr, i.admitted = true → (i.mrcRt ≠ none ∨ i.mcrRt ≠ none) →
          ∃ e, exec i t = .next { t with ended := some e }) ∧
    (s.mode = .monitor →
      ∃ t : State, exec (.mcrA32 14#4 rt) s = .next t ∧ t.mode = .monitor ∧ t.isSecure = true ∧ t.el = .el3)

/-! ### WFE and WFI -/

/-- R70, R71, R73: a WFE or WFI that fails its condition check, or that would not sleep, completes at once, whatever the
fields and controls hold. That a failed condition does nothing is general knowledge the spec supplies (G14); that the check of
a T32 one is the input `CondPassed` is assumption log 12. -/
def Obligations.WaitCompletesAtOnce : Prop :=
  ∀ (i : Instr) (w : WaitInstr) (s : State), i.waitOf = some w → s.impl.scrExists = true →
    (i.passes s = false ∨ s.input.wouldSleep = false) →
    exec i s = .next { s with pc := s.pc + 1, waiting := false }

/-- R70, R71, R100: an exception to EL1 or EL2 on a WFE or WFI that would sleep has priority over the trap to Monitor mode. -/
def Obligations.LowerTrapHasPriority : Prop :=
  ∀ (i : Instr) (w : WaitInstr) (s : State), i.waitOf = some w → s.impl.scrExists = true →
    i.passes s = true → s.input.wouldSleep = true → s.lowerTrap w = true →
    exec i s = .next { s with ended := some (.lowerELTrap w) }

/-- R70 to R72: with TWE (TWI) 1 outside Monitor mode, a WFE (WFI) that would sleep is trapped to Monitor mode or completes;
it does not wait. -/
def Obligations.MonitorTrapOrCompletion : Prop :=
  ∀ (i : Instr) (w : WaitInstr) (s : State), i.waitOf = some w → s.impl.scrExists = true →
    i.passes s = true → s.input.wouldSleep = true → s.lowerTrap w = false →
    s.governed (match w with | .wfe => .twe | .wfi => .twi) = true → s.mode ≠ .monitor →
    (s.input.trapTaken = true → exec i s = .next { s with ended := some (.monitorTrap (.wait w)) }) ∧
    (s.input.trapTaken = false → exec i s = .next { s with pc := s.pc + 1, waiting := false })

/-- R72: where no trap applies (the field is 0, or the mode is Monitor), a WFE or WFI that would sleep completes with a Wakeup
event, may complete without one, and otherwise waits at its own `pc` (D27; that a wait is a state of the machine is the
model's choice: assumption log 9). -/
def Obligations.UntrappedWaitThenCompletes : Prop :=
  ∀ (i : Instr) (w : WaitInstr) (s : State), i.waitOf = some w → s.impl.scrExists = true →
    i.passes s = true → s.input.wouldSleep = true → s.lowerTrap w = false →
    s.governed (match w with | .wfe => .twe | .wfi => .twi) = false ∨ s.mode = .monitor →
    (s.input.wakeup = true ∨ s.input.waitEnds = true → exec i s = .next { s with pc := s.pc + 1, waiting := false }) ∧
    (s.input.wakeup = false → s.input.waitEnds = false → exec i s = .next { s with waiting := true })

/-- R72: a wait goes on in the next step, and ends at the latest with a Wakeup event; while it lasts nothing but pending bits,
the TLB's scheduled flush, the input and the step number changes. No interrupt is taken in a wait (assumption log 9). -/
def Obligations.WaitGoesOn : Prop :=
  ∀ s : State, s.ended = none → s.waiting = true →
    (s.input.wakeup = true ∨ s.input.waitEnds = true →
      step s =
        .next { s with
          sifTlb := (arrive s).sifTlb, pend := (arrive s).pend, pc := s.pc + 1, waiting := false
          env := s.env.tail, tick := s.tick + 1 }) ∧
    (s.input.wakeup = false → s.input.waitEnds = false →
      step s =
        .next { s with
          sifTlb := (arrive s).sifTlb, pend := (arrive s).pend, env := s.env.tail, tick := s.tick + 1 })

/-- R94: a step that ends the run with a Monitor trap was not in Monitor mode, and its cause is the place at `pc`: an
error-record access with TERR 1 (a place with no word: assumption log 17), a WFE with TWE 1 or a WFI with TWI 1. The trapped
instruction writes nothing, and the mode in the record's state is the one before it (R101, assumption log 4). -/
def Obligations.MonitorTrapCauses : Prop :=
  ∀ (s t : State) (cause : TrapCause), step s = .next t → t.ended = some (.monitorTrap cause) →
    s.mode ≠ .monitor ∧
    s.governed (match cause with | .wait .wfe => .twe | .wait .wfi => .twi | .errAccess _ _ => .terr) = true ∧
    (match cause with
      | .wait w => ∃ (c : CodeWord) (i : Instr), s.program[s.pc]? = some (.code c) ∧ decode c = .ok i ∧ i.waitOf = some w
      | .errAccess reg dir => s.program[s.pc]? = some (.errAccess reg dir)) ∧
    t.scr = s.scr ∧ t.x = s.x ∧ t.pc = s.pc ∧ t.mode = s.mode

/-! ### HVC and SMC -/

/-- R75: HVC is UNDEFINED where EL2 is not implemented, at EL0, and in Secure state, whatever HCE holds. -/
def Obligations.HvcAlwaysUndefinedThere : Prop :=
  ∀ (s : State) (imm16 : BitVec 16), s.impl.scrExists = true →
    s.impl.haveEl2 = false ∨ s.mode = .user ∨ s.governedSecure = true →
    exec (.hvcA32 imm16) s = .next { s with ended := some (.undefined none) } ∧
    exec (.hvcT32 imm16) s = .next { s with ended := some (.undefined none) }

/-- R74: HVC at Non-secure EL1 and EL2: with HCE 1 it does what an enabled HVC does; with HCE 0 it is UNDEFINED at EL1, and at
EL2 UNDEFINED or a no-operation by the choice of D23 (the lost list of G15, the abstract outcome of D36). -/
def Obligations.HvcUnderHce : Prop :=
  ∀ (s : State) (i : Instr) (imm16 : BitVec 16), i = .hvcA32 imm16 ∨ i = .hvcT32 imm16 →
    s.impl.scrExists = true → s.impl.haveEl2 = true → s.mode ≠ .user → s.governedSecure = false →
    (s.governed .hce = true → exec i s = .next { s with ended := some .hvcEnabled }) ∧
    (s.governed .hce = false → s.mode ≠ .hyp → exec i s = .next { s with ended := some (.undefined none) }) ∧
    (s.governed .hce = false → s.mode = .hyp →
      exec i s =
        if choiceIsNop s.impl.hce0El2Choice s.input.hce0Nop then .next { s with pc := s.pc + 1, waiting := false }
        else .next { s with ended := some (.undefined none) })

/-- R77: SMC is UNDEFINED at PL0, in both Security states and for both values of SCD. The premise that the instruction passes
its condition check is the model's choice, assumption log 11 (G14): R77 says always, with no condition, and an A32 SMC that
fails its check goes on (SmcFailingItsConditionGoesOn). -/
def Obligations.SmcUndefinedAtPl0 : Prop :=
  ∀ (s : State) (i : Instr) (cond imm4 : BitVec 4), i = .smcA32 cond imm4 ∨ i = .smcT32 imm4 →
    i.passes s = true → s.impl.scrExists = true → s.mode = .user →
    exec i s = .next { s with ended := some (.undefined none) }

/-- R76: SMC above PL0: enabled with SCD 0; with SCD 1 UNDEFINED in Non-secure state, taken to the current level, and in
Secure state UNDEFINED or a no-operation by the choice of D24 (the lost list of G16, the abstract outcome of D36). -/
def Obligations.SmcUnderScd : Prop :=
  ∀ (s : State) (i : Instr) (cond imm4 : BitVec 4), i = .smcA32 cond imm4 ∨ i = .smcT32 imm4 →
    i.passes s = true → s.impl.scrExists = true → s.mode ≠ .user →
    (s.governed .scd = false → exec i s = .next { s with ended := some .smcEnabled }) ∧
    (s.governed .scd = true → s.governedSecure = false →
      exec i s = .next { s with ended := some (.undefined (some (if s.mode = .hyp then .el2 else .el1))) }) ∧
    (s.governed .scd = true → s.governedSecure = true →
      exec i s =
        if choiceIsNop s.impl.scdSecureChoice s.input.scdNop then .next { s with pc := s.pc + 1, waiting := false }
        else .next { s with ended := some (.undefined none) })

/-- The model's choice (assumption log 11, G14): an SMC that fails its condition check does nothing and goes on. -/
def Obligations.SmcFailingItsConditionGoesOn : Prop :=
  ∀ (s : State) (cond imm4 : BitVec 4), s.impl.scrExists = true → cond ≠ 14#4 → s.input.condPassed = false →
    exec (.smcA32 cond imm4) s = .next { s with pc := s.pc + 1, waiting := false }

/-! ### Error-record accesses -/

/-- R78: the error-record access, a place of the program with no word (assumption log 17): refused where the register is not
described, pre-empted by another exception where the input says so (the decision D34, assumption log 26), trapped to Monitor
mode with TERR 1 outside Monitor mode, and otherwise going on, a record of which nothing more is said (D36, assumption log 5);
reads and writes alike. -/
def Obligations.ErrAccessUnderTerr : Prop :=
  ∀ (s : State) (reg : ErrReg) (dir : ErrDir), s.impl.scrExists = true →
    (s.impl.haveRas = false → execErrAccess reg dir s = .refused .noRAS) ∧
    (s.impl.haveRas = true → s.impl.haveRasV84 = false →
      reg = .erxmisc4 ∨ reg = .erxmisc5 ∨ reg = .erxmisc6 ∨ reg = .erxmisc7 →
      execErrAccess reg dir s = .refused .noRASv84) ∧
    (s.impl.haveRas = true →
      s.impl.haveRasV84 = true ∨
        (reg ≠ .erxmisc4 ∧ reg ≠ .erxmisc5 ∧ reg ≠ .erxmisc6 ∧ reg ≠ .erxmisc7) →
      execErrAccess reg dir s =
        .next { s with
          ended := some
            (if s.input.errPreempted then .otherException reg dir
            else if s.governed .terr && decide (s.mode ≠ .monitor) then .monitorTrap (.errAccess reg dir)
            else .errAccessProceeds) })

/-! ### IRQ, FIQ, External abort -/

/-- R95: a pending IRQ that `MASK_I` does not mask is taken to Monitor mode with SCR.IRQ 1, else to Hyp mode where `HYP_ROUTE`
says so, else to IRQ mode. `MASK_I` is the decision D28 and `HYP_ROUTE` the decision D29, both inputs of the step (assumption
log 7). -/
def Obligations.IrqRouting : Prop :=
  ∀ s : State, s.ended = none → s.waiting = false → s.impl.scrExists = true → s.input.take = some .irq →
    s.pend.irq = true ∨ s.input.assertIRQ = true → s.input.maskI = false →
    ∃ t : State, step s = .next t ∧ t.pend.irq = false ∧
      t.ended = some (.takeIRQ
        (if s.governed .irq then .monitor else if s.input.hypRouteIRQ then .hyp else .irq))

/-- R96: a pending FIQ that is not masked is taken to Monitor mode with SCR.FIQ 1, else to Hyp mode where `HYP_ROUTE` says so,
else to FIQ mode. `HYP_ROUTE` is the decision D29, an input of the step (assumption log 7). -/
def Obligations.FiqRouting : Prop :=
  ∀ s : State, s.ended = none → s.waiting = false → s.impl.scrExists = true → s.input.take = some .fiq →
    s.pend.fiq = true ∨ s.input.assertFIQ = true → s.masked .fiq = false →
    ∃ t : State, step s = .next t ∧ t.pend.fiq = false ∧
      t.ended = some (.takeFIQ
        (if s.governed .fiq then .monitor else if s.input.hypRouteFIQ then .hyp else .fiq))

/-- R97: a pending External abort that is not masked is taken to Monitor mode with SCR.EA 1, else to Hyp mode where
`HYP_ROUTE` says so, else to Abort mode. `HYP_ROUTE` is the decision D29, an input of the step (assumption log 7). -/
def Obligations.ExternalAbortRouting : Prop :=
  ∀ s : State, s.ended = none → s.waiting = false → s.impl.scrExists = true → s.input.take = some .ea →
    s.pend.ea = true ∨ s.input.assertEA = true → s.masked .ea = false →
    ∃ t : State, step s = .next t ∧ t.pend.ea = false ∧
      t.ended = some (.takeExternalAbort
        (if s.governed .ea then .monitor else if s.input.hypRouteEA then .hyp else .abort))

/-- R98: where SCR exists, with SCR.FIQ 1 and HCR.FMO 0 (HCR.FMO reads 0 without EL2: D18, assumption log 19), CPSR.F masks an
FIQ, but not one taken from Non-secure state with FW 0; otherwise FW has no effect, and what masks is `MASK_OTHER_F`, the
decision D28, an input of the step (assumption log 7). Where SCR does not exist (R2) what masks is `MASK_OTHER_F` too
(assumption log 18). A masked FIQ is not taken and stays pending. -/
def Obligations.FiqMasking : Prop :=
  (∀ s : State,
    (s.impl.scrExists = true → s.governed .fiq = true → (s.impl.haveEl2 && s.ctl.hcrFMO) = false →
      (s.masked .fiq = true ↔ s.cpsrF = true ∧ (s.governed .fw = true ∨ s.governedSecure = true))) ∧
    (s.impl.scrExists = false ∨ s.governed .fiq = false ∨ (s.impl.haveEl2 && s.ctl.hcrFMO) = true →
      s.masked .fiq = s.input.maskOtherF)) ∧
  (∀ s t : State, s.masked .fiq = true → s.pend.fiq = true → step s = .next t → t.pend.fiq = true)

/-- R99: where SCR exists, with SCR.EA 1 and HCR.AMO 0 (HCR.AMO reads 0 without EL2: D18, assumption log 19), CPSR.A masks an
External abort, but not one taken from Non-secure state with AW 0; otherwise AW has no effect, and what masks is
`MASK_OTHER_A`, the decision D28, an input of the step (assumption log 7). Where SCR does not exist (R2) what masks is
`MASK_OTHER_A` too (assumption log 18). A masked External abort is not taken and stays pending. -/
def Obligations.ExternalAbortMasking : Prop :=
  (∀ s : State,
    (s.impl.scrExists = true → s.governed .ea = true → (s.impl.haveEl2 && s.ctl.hcrAMO) = false →
      (s.masked .ea = true ↔ s.cpsrA = true ∧ (s.governed .aw = true ∨ s.governedSecure = true))) ∧
    (s.impl.scrExists = false ∨ s.governed .ea = false ∨ (s.impl.haveEl2 && s.ctl.hcrAMO) = true →
      s.masked .ea = s.input.maskOtherA)) ∧
  (∀ s t : State, s.masked .ea = true → s.pend.ea = true → step s = .next t → t.pend.ea = true)

/-! ### Frames and rules of the whole machine -/

/-- The frame of every instruction that gives a next state: only an MRC's own register changes among the registers, and only
an MCR changes SCR and the hidden sets; `pc` stays or moves on by one, and then nothing waits and the run has not ended by it;
a wait begins only in a WFE or WFI, and leaves `pc`; an instruction that ends the run changes nothing else; everything else
stays. -/
def Obligations.InstructionFrame : Prop :=
  ∀ (i : Instr) (s t : State), exec i s = .next t →
    s.SameFixed t ∧ t.pend = s.pend ∧ t.env = s.env ∧ t.tick = s.tick ∧
    (∀ r, i.mrcRt ≠ some r → t.reg r = s.reg r) ∧
    (i.mcrRt = none → t.scr = s.scr ∧ t.sifTlb = s.sifTlb ∧ t.scrHist = s.scrHist) ∧
    (t.pc = s.pc ∨ t.pc = s.pc + 1) ∧
    (t.pc = s.pc + 1 → t.waiting = false ∧ t.ended = s.ended) ∧
    (t.waiting = true → s.waiting = true ∨ i.waitOf ≠ none) ∧
    (t.waiting ≠ s.waiting → t.pc = s.pc + 1 ∨ t = { s with waiting := true }) ∧
    (t.ended ≠ s.ended → t = { s with ended := t.ended })

/-- R4, R32 to R34, R49: no step changes the implementation, the mode, the masks, the controls or the program text. That the
mode stays also where a step takes an exception, of which R32 excepts a terminal outcome, is R101 as assumption log 4 reads
it: the state with the record is the one before the entry. -/
def Obligations.StepKeepsWhatIsFixed : Prop :=
  ∀ s t : State, step s = .next t → s.SameFixed t

/-- R60, R63, R66: a step changes SCR only by running an MCR of SCR at EL3, and then to `WriteValue` of its register. -/
def Obligations.OnlyAnMcrAtEl3ChangesScr : Prop :=
  ∀ s t : State, step s = .next t → t.scr ≠ s.scr →
    ∃ (c : CodeWord) (i : Instr) (rt : BitVec 4), s.program[s.pc]? = some (.code c) ∧ decode c = .ok i ∧
      i.mcrRt = some rt ∧ s.impl.scrExists = true ∧ s.el = .el3 ∧ t.scr = s.writeValue (s.reg rt) ∧ t.pc = s.pc + 1

/-- R104: from Non-secure state no number of steps changes SCR or comes back to Secure state. -/
def Obligations.NonSecureRunsNeverChangeScr : Prop :=
  ∀ (n : Nat) (s t : State), s.isSecure = false → Host.Core.run Sys2Proof.core n s = .next t →
    t.isSecure = false ∧ t.scr = s.scr

/-- R64, R104: with HCR.TGE set, a run that starts in a Secure PL1 mode other than Monitor stays in Secure state. -/
def Obligations.TgeKeepsRunsSecure : Prop :=
  ∀ (n : Nat) (s t : State), s.impl.haveEl2 = true → s.ctl.hcrTGE = true → s.mode ≠ .monitor → s.isSecure = true →
    Host.Core.run Sys2Proof.core n s = .next t → t.isSecure = true

/-- R28, R80: a reserved bit of SCR and nET have no effect but on what an MRC reads. Two states that differ in such bits of
SCR alone do the same: under every instruction but an access to SCR at EL3, under an MCR at EL3 (which replaces those bits
too), under an MRC at EL3 but for the value it reads, under the error-record access, and in a whole step (fetch under SIF,
routing, masking, waiting) whose place is no access to SCR. That the reserved bits have no effect is general knowledge the
spec supplies (assumption log 21), and that no step has a time is D33 (assumption log 29). -/
def Obligations.ReservedBitsAndNetHaveNoEffect : Prop :=
  ∀ (s : State) (d : Word), d &&& (rwMask s.impl &&& 0xFFFFFFBF#32) = 0 →
    (∀ i : Instr, (i.mrcRt = none ∧ i.mcrRt = none) ∨ s.el ≠ .el3 →
      exec i { s with scr := s.scr ^^^ d } = onNext (fun t => { t with scr := s.scr ^^^ d }) (exec i s)) ∧
    (∀ i : Instr, i.mcrRt ≠ none → s.el = .el3 → exec i { s with scr := s.scr ^^^ d } = exec i s) ∧
    (∀ (i : Instr) (rt : BitVec 4), i.mrcRt = some rt → s.el = .el3 →
      exec i { s with scr := s.scr ^^^ d } =
        onNext (fun t => { t with scr := s.scr ^^^ d, x := t.x.set rt.toNat (s.scr ^^^ d) rt.isLt }) (exec i s)) ∧
    (∀ (reg : ErrReg) (dir : ErrDir),
      execErrAccess reg dir { s with scr := s.scr ^^^ d } =
        onNext (fun t => { t with scr := s.scr ^^^ d }) (execErrAccess reg dir s)) ∧
    ((∀ (c : CodeWord) (i : Instr), s.program[s.pc]? = some (.code c) → decode c = .ok i →
        i.mrcRt = none ∧ i.mcrRt = none) →
      step { s with scr := s.scr ^^^ d } = onNext (fun t => { t with scr := s.scr ^^^ d }) (step s))

/-- R60: below EL3 an access to SCR shows nothing of it: on two states that differ in SCR alone, but not in NS, it ends the
run with the same record. -/
def Obligations.AccessBelowEl3ShowsNothingOfScr : Prop :=
  ∀ (s : State) (i : Instr) (v : Word), (i.mrcRt ≠ none ∨ i.mcrRt ≠ none) → s.el ≠ .el3 → field .ns v = field .ns s.scr →
    exec i { s with scr := v } = onNext (fun t => { t with scr := v }) (exec i s)

/-- R48 (the decision D12): under `immediate` the current SCR governs; under `relaxed` each bit of the governing value is that
bit of a value SCR has held, and each such value of a bit can be drawn. -/
def Obligations.GoverningValue : Prop :=
  (∀ s : State, s.impl.syncModel = .immediate → s.governing = s.scr) ∧
  (∀ (s : State) (i : Nat), s.scr ∈ s.scrHist → s.impl.syncModel = .relaxed →
    (∃ v ∈ s.scrHist, s.governing.getLsbD i = v.getLsbD i) ∧
    (∀ v ∈ s.scrHist, s.input.scrDraw.getLsbD i = v.getLsbD i → s.governing.getLsbD i = v.getLsbD i))

/-- R90: where SCR exists, a run that has not ended, at a place whose words decode to an admitted instruction, takes a step to
a next state, whatever the inputs are. The run may have ended in that state: that an outcome of R90 is a next state with a
record is the model's choice (assumption logs 4 and 5), and that an MCR does not fault on its register is assumption log 1,
against D21. -/
def Obligations.AdmittedInstructionsGoOn : Prop :=
  ∀ (s : State) (c : CodeWord) (i : Instr), s.ended = none → s.impl.scrExists = true →
    s.program[s.pc]? = some (.code c) → decode c = .ok i → i.admitted = true →
    ∃ t : State, step s = .next t ∧ t.tick = s.tick + 1

/-! ### Fields of SCR -/

/-- R15, R16: TWE is bit 13 and TWI bit 12, and a reset leaves both 0. With the field 0 no step traps a WFE (WFI) to Monitor
mode; with it 1 the trap of R70 (R71) can be taken on each form of the instruction, where its conditions hold. -/
def Obligations.TweTrapsWfeAndTwiTrapsWfi : Prop :=
  (∀ v : Word, field .twe v = v.getLsbD 13 ∧ field .twi v = v.getLsbD 12) ∧
  (∀ (s : State) (res0 : Word), field .twe (resetFrom res0 s).scr = false ∧ field .twi (resetFrom res0 s).scr = false) ∧
  (∀ (s t : State) (w : WaitInstr), s.governed (match w with | .wfe => .twe | .wfi => .twi) = false → step s = .next t →
    t.ended ≠ some (.monitorTrap (.wait w))) ∧
  (∀ (i : Instr) (w : WaitInstr) (s : State), i.waitOf = some w → s.impl.scrExists = true →
    i.passes s = true → s.input.wouldSleep = true → s.lowerTrap w = false →
    s.governed (match w with | .wfe => .twe | .wfi => .twi) = true → s.mode ≠ .monitor → s.input.trapTaken = true →
    ∃ t : State, exec i s = .next t ∧ t.ended = some (.monitorTrap (.wait w)))

/-- R27: NS is bit 0; except in Monitor mode it determines the Security state, Secure with 0 and Non-secure with 1; a reset
leaves it 0. A write takes the bit written, but that with HCR.TGE set it does not go from 0 to 1 from a mode other than
Monitor. -/
def Obligations.NsDeterminesTheSecurityState : Prop :=
  (∀ v : Word, field .ns v = v.getLsbD 0) ∧
  (∀ s : State, s.impl.scrExists = true → s.mode ≠ .monitor →
    (field .ns s.scr = false → s.isSecure = true) ∧ (field .ns s.scr = true → s.isSecure = false)) ∧
  (∀ (s : State) (res0 : Word), field .ns (resetFrom res0 s).scr = false) ∧
  (∀ (s : State) (v : Word),
    (field .ns v = false ∨ s.hcrTGE = false → field .ns (s.writeValue v) = field .ns v) ∧
    (s.hcrTGE = true → s.mode ≠ .monitor → field .ns s.scr = false → field .ns (s.writeValue v) = false))

/-- R2: where SCR does not exist the machine has no SCR state: two states that differ only in the field `scr` and in the two
sets that keep its old values take steps of one outcome, the same fault, the same refusal or next states that differ only
there. That an instruction other than an access to SCR is refused there is the decision D1 (assumption log 18). -/
def Obligations.AbsentScrDecidesNothing : Prop :=
  ∀ (s : State) (scr : Word) (hist : List Word) (sif : SifSet), s.impl.scrExists = false →
    onNext (fun t => { t with scr := scr, scrHist := hist, sifTlb := sif })
        (step { s with scr := scr, scrHist := hist, sifTlb := sif }) =
      onNext (fun t => { t with scr := scr, scrHist := hist, sifTlb := sif }) (step s)
end

