-- ==== Sys2Proof/Laws/State.lean ====
section
/-! SUPPORT. What each named operation on the state leaves in each field: one lemma per field per operation, so that no later
proof unfolds a record update. -/

namespace Sys2Proof.Machine

/-! ### endWith -/

@[simp] theorem endWith_impl (e : Ending) (s : State) : (endWith e s).impl = s.impl := rfl
@[simp] theorem endWith_scr (e : Ending) (s : State) : (endWith e s).scr = s.scr := rfl
@[simp] theorem endWith_x (e : Ending) (s : State) : (endWith e s).x = s.x := rfl
@[simp] theorem endWith_pc (e : Ending) (s : State) : (endWith e s).pc = s.pc := rfl
@[simp] theorem endWith_mode (e : Ending) (s : State) : (endWith e s).mode = s.mode := rfl
@[simp] theorem endWith_cpsrA (e : Ending) (s : State) : (endWith e s).cpsrA = s.cpsrA := rfl
@[simp] theorem endWith_cpsrF (e : Ending) (s : State) : (endWith e s).cpsrF = s.cpsrF := rfl
@[simp] theorem endWith_ctl (e : Ending) (s : State) : (endWith e s).ctl = s.ctl := rfl
@[simp] theorem endWith_sifTlb (e : Ending) (s : State) : (endWith e s).sifTlb = s.sifTlb := rfl
@[simp] theorem endWith_scrHist (e : Ending) (s : State) : (endWith e s).scrHist = s.scrHist := rfl
@[simp] theorem endWith_pend (e : Ending) (s : State) : (endWith e s).pend = s.pend := rfl
@[simp] theorem endWith_waiting (e : Ending) (s : State) : (endWith e s).waiting = s.waiting := rfl
@[simp] theorem endWith_ended (e : Ending) (s : State) : (endWith e s).ended = some e := rfl
@[simp] theorem endWith_program (e : Ending) (s : State) : (endWith e s).program = s.program := rfl
@[simp] theorem endWith_env (e : Ending) (s : State) : (endWith e s).env = s.env := rfl
@[simp] theorem endWith_tick (e : Ending) (s : State) : (endWith e s).tick = s.tick := rfl

/-! ### complete -/

@[simp] theorem complete_impl (s : State) : (complete s).impl = s.impl := rfl
@[simp] theorem complete_scr (s : State) : (complete s).scr = s.scr := rfl
@[simp] theorem complete_x (s : State) : (complete s).x = s.x := rfl
@[simp] theorem complete_pc (s : State) : (complete s).pc = s.pc + 1 := rfl
@[simp] theorem complete_mode (s : State) : (complete s).mode = s.mode := rfl
@[simp] theorem complete_cpsrA (s : State) : (complete s).cpsrA = s.cpsrA := rfl
@[simp] theorem complete_cpsrF (s : State) : (complete s).cpsrF = s.cpsrF := rfl
@[simp] theorem complete_ctl (s : State) : (complete s).ctl = s.ctl := rfl
@[simp] theorem complete_sifTlb (s : State) : (complete s).sifTlb = s.sifTlb := rfl
@[simp] theorem complete_scrHist (s : State) : (complete s).scrHist = s.scrHist := rfl
@[simp] theorem complete_pend (s : State) : (complete s).pend = s.pend := rfl
@[simp] theorem complete_waiting (s : State) : (complete s).waiting = false := rfl
@[simp] theorem complete_ended (s : State) : (complete s).ended = s.ended := rfl
@[simp] theorem complete_program (s : State) : (complete s).program = s.program := rfl
@[simp] theorem complete_env (s : State) : (complete s).env = s.env := rfl
@[simp] theorem complete_tick (s : State) : (complete s).tick = s.tick := rfl

/-! ### keepWaiting -/

@[simp] theorem keepWaiting_impl (s : State) : (keepWaiting s).impl = s.impl := rfl
@[simp] theorem keepWaiting_scr (s : State) : (keepWaiting s).scr = s.scr := rfl
@[simp] theorem keepWaiting_x (s : State) : (keepWaiting s).x = s.x := rfl
@[simp] theorem keepWaiting_pc (s : State) : (keepWaiting s).pc = s.pc := rfl
@[simp] theorem keepWaiting_mode (s : State) : (keepWaiting s).mode = s.mode := rfl
@[simp] theorem keepWaiting_cpsrA (s : State) : (keepWaiting s).cpsrA = s.cpsrA := rfl
@[simp] theorem keepWaiting_cpsrF (s : State) : (keepWaiting s).cpsrF = s.cpsrF := rfl
@[simp] theorem keepWaiting_ctl (s : State) : (keepWaiting s).ctl = s.ctl := rfl
@[simp] theorem keepWaiting_sifTlb (s : State) : (keepWaiting s).sifTlb = s.sifTlb := rfl
@[simp] theorem keepWaiting_scrHist (s : State) : (keepWaiting s).scrHist = s.scrHist := rfl
@[simp] theorem keepWaiting_pend (s : State) : (keepWaiting s).pend = s.pend := rfl
@[simp] theorem keepWaiting_waiting (s : State) : (keepWaiting s).waiting = true := rfl
@[simp] theorem keepWaiting_ended (s : State) : (keepWaiting s).ended = s.ended := rfl
@[simp] theorem keepWaiting_program (s : State) : (keepWaiting s).program = s.program := rfl
@[simp] theorem keepWaiting_env (s : State) : (keepWaiting s).env = s.env := rfl
@[simp] theorem keepWaiting_tick (s : State) : (keepWaiting s).tick = s.tick := rfl

/-! ### setReg -/

@[simp] theorem setReg_impl (s : State) (t : BitVec 4) (v : Word) : (s.setReg t v).impl = s.impl := rfl
@[simp] theorem setReg_scr (s : State) (t : BitVec 4) (v : Word) : (s.setReg t v).scr = s.scr := rfl
@[simp] theorem setReg_x (s : State) (t : BitVec 4) (v : Word) : (s.setReg t v).x = s.x.set t.toNat v t.isLt := rfl
@[simp] theorem setReg_pc (s : State) (t : BitVec 4) (v : Word) : (s.setReg t v).pc = s.pc := rfl
@[simp] theorem setReg_mode (s : State) (t : BitVec 4) (v : Word) : (s.setReg t v).mode = s.mode := rfl
@[simp] theorem setReg_cpsrA (s : State) (t : BitVec 4) (v : Word) : (s.setReg t v).cpsrA = s.cpsrA := rfl
@[simp] theorem setReg_cpsrF (s : State) (t : BitVec 4) (v : Word) : (s.setReg t v).cpsrF = s.cpsrF := rfl
@[simp] theorem setReg_ctl (s : State) (t : BitVec 4) (v : Word) : (s.setReg t v).ctl = s.ctl := rfl
@[simp] theorem setReg_sifTlb (s : State) (t : BitVec 4) (v : Word) : (s.setReg t v).sifTlb = s.sifTlb := rfl
@[simp] theorem setReg_scrHist (s : State) (t : BitVec 4) (v : Word) : (s.setReg t v).scrHist = s.scrHist := rfl
@[simp] theorem setReg_pend (s : State) (t : BitVec 4) (v : Word) : (s.setReg t v).pend = s.pend := rfl
@[simp] theorem setReg_waiting (s : State) (t : BitVec 4) (v : Word) : (s.setReg t v).waiting = s.waiting := rfl
@[simp] theorem setReg_ended (s : State) (t : BitVec 4) (v : Word) : (s.setReg t v).ended = s.ended := rfl
@[simp] theorem setReg_program (s : State) (t : BitVec 4) (v : Word) : (s.setReg t v).program = s.program := rfl
@[simp] theorem setReg_env (s : State) (t : BitVec 4) (v : Word) : (s.setReg t v).env = s.env := rfl
@[simp] theorem setReg_tick (s : State) (t : BitVec 4) (v : Word) : (s.setReg t v).tick = s.tick := rfl

/-! ### setScr -/

@[simp] theorem setScr_impl (v : Word) (s : State) : (setScr v s).impl = s.impl := rfl
@[simp] theorem setScr_scr (v : Word) (s : State) : (setScr v s).scr = v := rfl
@[simp] theorem setScr_x (v : Word) (s : State) : (setScr v s).x = s.x := rfl
@[simp] theorem setScr_pc (v : Word) (s : State) : (setScr v s).pc = s.pc := rfl
@[simp] theorem setScr_mode (v : Word) (s : State) : (setScr v s).mode = s.mode := rfl
@[simp] theorem setScr_cpsrA (v : Word) (s : State) : (setScr v s).cpsrA = s.cpsrA := rfl
@[simp] theorem setScr_cpsrF (v : Word) (s : State) : (setScr v s).cpsrF = s.cpsrF := rfl
@[simp] theorem setScr_ctl (v : Word) (s : State) : (setScr v s).ctl = s.ctl := rfl
@[simp] theorem setScr_sifTlb (v : Word) (s : State) : (setScr v s).sifTlb = s.sifTlb.add (field .sif v) := rfl
@[simp] theorem setScr_scrHist (v : Word) (s : State) : (setScr v s).scrHist = histAdd v s.scrHist := rfl
@[simp] theorem setScr_pend (v : Word) (s : State) : (setScr v s).pend = s.pend := rfl
@[simp] theorem setScr_waiting (v : Word) (s : State) : (setScr v s).waiting = s.waiting := rfl
@[simp] theorem setScr_ended (v : Word) (s : State) : (setScr v s).ended = s.ended := rfl
@[simp] theorem setScr_program (v : Word) (s : State) : (setScr v s).program = s.program := rfl
@[simp] theorem setScr_env (v : Word) (s : State) : (setScr v s).env = s.env := rfl
@[simp] theorem setScr_tick (v : Word) (s : State) : (setScr v s).tick = s.tick := rfl

/-! ### takeAsync -/

@[simp] theorem takeAsync_impl (k : Async) (s : State) : (takeAsync k s).impl = s.impl := rfl
@[simp] theorem takeAsync_scr (k : Async) (s : State) : (takeAsync k s).scr = s.scr := rfl
@[simp] theorem takeAsync_x (k : Async) (s : State) : (takeAsync k s).x = s.x := rfl
@[simp] theorem takeAsync_pc (k : Async) (s : State) : (takeAsync k s).pc = s.pc := rfl
@[simp] theorem takeAsync_mode (k : Async) (s : State) : (takeAsync k s).mode = s.mode := rfl
@[simp] theorem takeAsync_cpsrA (k : Async) (s : State) : (takeAsync k s).cpsrA = s.cpsrA := rfl
@[simp] theorem takeAsync_cpsrF (k : Async) (s : State) : (takeAsync k s).cpsrF = s.cpsrF := rfl
@[simp] theorem takeAsync_ctl (k : Async) (s : State) : (takeAsync k s).ctl = s.ctl := rfl
@[simp] theorem takeAsync_sifTlb (k : Async) (s : State) : (takeAsync k s).sifTlb = s.sifTlb := rfl
@[simp] theorem takeAsync_scrHist (k : Async) (s : State) : (takeAsync k s).scrHist = s.scrHist := rfl
@[simp] theorem takeAsync_pend (k : Async) (s : State) : (takeAsync k s).pend = s.pend.clear k := rfl
@[simp] theorem takeAsync_waiting (k : Async) (s : State) : (takeAsync k s).waiting = s.waiting := rfl
@[simp] theorem takeAsync_ended (k : Async) (s : State) : (takeAsync k s).ended = some (takenEnding k (s.route k)) := rfl
@[simp] theorem takeAsync_program (k : Async) (s : State) : (takeAsync k s).program = s.program := rfl
@[simp] theorem takeAsync_env (k : Async) (s : State) : (takeAsync k s).env = s.env := rfl
@[simp] theorem takeAsync_tick (k : Async) (s : State) : (takeAsync k s).tick = s.tick := rfl

/-! ### endStep -/

@[simp] theorem endStep_impl (s : State) : (endStep s).impl = s.impl := rfl
@[simp] theorem endStep_scr (s : State) : (endStep s).scr = s.scr := rfl
@[simp] theorem endStep_x (s : State) : (endStep s).x = s.x := rfl
@[simp] theorem endStep_pc (s : State) : (endStep s).pc = s.pc := rfl
@[simp] theorem endStep_mode (s : State) : (endStep s).mode = s.mode := rfl
@[simp] theorem endStep_cpsrA (s : State) : (endStep s).cpsrA = s.cpsrA := rfl
@[simp] theorem endStep_cpsrF (s : State) : (endStep s).cpsrF = s.cpsrF := rfl
@[simp] theorem endStep_ctl (s : State) : (endStep s).ctl = s.ctl := rfl
@[simp] theorem endStep_sifTlb (s : State) : (endStep s).sifTlb = s.sifTlb := rfl
@[simp] theorem endStep_scrHist (s : State) : (endStep s).scrHist = s.scrHist := rfl
@[simp] theorem endStep_pend (s : State) : (endStep s).pend = s.pend := rfl
@[simp] theorem endStep_waiting (s : State) : (endStep s).waiting = s.waiting := rfl
@[simp] theorem endStep_ended (s : State) : (endStep s).ended = s.ended := rfl
@[simp] theorem endStep_program (s : State) : (endStep s).program = s.program := rfl
@[simp] theorem endStep_env (s : State) : (endStep s).env = s.env.tail := rfl
@[simp] theorem endStep_tick (s : State) : (endStep s).tick = s.tick + 1 := rfl

/-! ### arrive -/

@[simp] theorem arrive_impl (s : State) : (arrive s).impl = s.impl := rfl
@[simp] theorem arrive_scr (s : State) : (arrive s).scr = s.scr := rfl
@[simp] theorem arrive_x (s : State) : (arrive s).x = s.x := rfl
@[simp] theorem arrive_pc (s : State) : (arrive s).pc = s.pc := rfl
@[simp] theorem arrive_mode (s : State) : (arrive s).mode = s.mode := rfl
@[simp] theorem arrive_cpsrA (s : State) : (arrive s).cpsrA = s.cpsrA := rfl
@[simp] theorem arrive_cpsrF (s : State) : (arrive s).cpsrF = s.cpsrF := rfl
@[simp] theorem arrive_ctl (s : State) : (arrive s).ctl = s.ctl := rfl
@[simp] theorem arrive_sifTlb (s : State) : (arrive s).sifTlb = if s.impl.tlbFlushedAt.contains s.tick then SifSet.only (field .sif s.scr) else s.sifTlb := rfl
@[simp] theorem arrive_scrHist (s : State) : (arrive s).scrHist = s.scrHist := rfl
@[simp] theorem arrive_pend (s : State) : (arrive s).pend = s.pendAfter := rfl
@[simp] theorem arrive_waiting (s : State) : (arrive s).waiting = s.waiting := rfl
@[simp] theorem arrive_ended (s : State) : (arrive s).ended = s.ended := rfl
@[simp] theorem arrive_program (s : State) : (arrive s).program = s.program := rfl
@[simp] theorem arrive_env (s : State) : (arrive s).env = s.env := rfl
@[simp] theorem arrive_tick (s : State) : (arrive s).tick = s.tick := rfl

/-! ### Reading a register after an operation -/

theorem reg_setReg_same (s : State) (t : BitVec 4) (v : Word) : (s.setReg t v).reg t = v := by
  simp [State.reg, State.setReg]

theorem reg_setReg_other (s : State) (t u : BitVec 4) (v : Word) (h : u ≠ t) : (s.setReg t v).reg u = s.reg u := by
  have : t.toNat ≠ u.toNat := fun e => h (BitVec.eq_of_toNat_eq e.symm)
  simp [State.reg, State.setReg, this]

@[simp] theorem endWith_reg (e : Ending) (s : State) (t : BitVec 4) : (endWith e s).reg t = s.reg t := rfl
@[simp] theorem complete_reg (s : State) (t : BitVec 4) : (complete s).reg t = s.reg t := rfl
@[simp] theorem setScr_reg (v : Word) (s : State) (t : BitVec 4) : (setScr v s).reg t = s.reg t := rfl
@[simp] theorem arrive_reg (s : State) (t : BitVec 4) : (arrive s).reg t = s.reg t := rfl
@[simp] theorem endStep_reg (s : State) (t : BitVec 4) : (endStep s).reg t = s.reg t := rfl

/-! ### The environment's part of a step leaves what the PE reads of it -/

@[simp] theorem arrive_input (s : State) : (arrive s).input = s.input := rfl
@[simp] theorem arrive_governing (s : State) : (arrive s).governing = s.governing := rfl
@[simp] theorem arrive_accessCheck (s : State) : (arrive s).accessCheck = s.accessCheck := rfl
@[simp] theorem arrive_fetched (s : State) : (arrive s).fetched = s.fetched := rfl

end Sys2Proof.Machine
end

