-- ==== Sys2Proof/Laws/Ops.lean ====
section
/-! SUPPORT. For each shared operation, once, what it can do: later proofs cite these and do not unfold it. -/

namespace Sys2Proof.Machine

/-! ### Outcomes -/

@[simp] theorem onNext_next (f : State → State) (s : State) : onNext f (.next s) = .next (f s) := rfl
@[simp] theorem onNext_fault (f : State → State) (r : Fault) : onNext f (.fault r) = .fault r := rfl
@[simp] theorem onNext_refused (f : State → State) (r : Refusal) : onNext f (.refused r) = .refused r := rfl

theorem onNext_eq_next {f : State → State} {r : Result} {t : State} (h : onNext f r = .next t) :
    ∃ s, r = .next s ∧ t = f s := by
  cases r with
  | next s => exact ⟨s, rfl, by simpa using h.symm⟩
  | fault r => simp at h
  | refused r => simp at h

theorem inConfiguration_eq_next {s t : State} {r : Result} (h : inConfiguration s r = .next t) :
    s.impl.scrExists = true ∧ r = .next t := by
  unfold inConfiguration at h
  split at h
  · exact ⟨‹_›, h⟩
  · simp at h

theorem inConfiguration_of_exists {s : State} (h : s.impl.scrExists = true) (r : Result) : inConfiguration s r = r := by
  simp [inConfiguration, h]

/-! ### The drawn value of SCR -/

theorem everSet_getLsbD (scr : Word) (hist : List Word) (i : Nat) :
    (everSet scr hist).getLsbD i = (scr.getLsbD i || hist.any (·.getLsbD i)) := by
  unfold everSet
  induction hist generalizing scr with
  | nil => simp
  | cons v vs ih => simp [ih, Bool.or_assoc]

theorem alwaysSet_getLsbD (scr : Word) (hist : List Word) (i : Nat) :
    (alwaysSet scr hist).getLsbD i = (scr.getLsbD i && hist.all (·.getLsbD i)) := by
  unfold alwaysSet
  induction hist generalizing scr with
  | nil => simp
  | cons v vs ih => simp [ih, Bool.and_assoc]

/-- A drawn bit is the bit of some value SCR has held, or of the current one. -/
theorem drawnScr_sound (draw scr : Word) (hist : List Word) (i : Nat) :
    ∃ v ∈ scr :: hist, (drawnScr draw scr hist).getLsbD i = v.getLsbD i := by
  simp only [drawnScr, BitVec.getLsbD_or, BitVec.getLsbD_and, everSet_getLsbD, alwaysSet_getLsbD]
  by_cases h1 : ∃ v ∈ scr :: hist, v.getLsbD i = true
  · by_cases h0 : ∃ v ∈ scr :: hist, v.getLsbD i = false
    · obtain ⟨v, hv, e⟩ := h1
      obtain ⟨u, hu, f⟩ := h0
      cases hb : ((draw.getLsbD i && (scr.getLsbD i || hist.any (·.getLsbD i))) ||
          (scr.getLsbD i && hist.all (·.getLsbD i)))
      · exact ⟨u, hu, f.symm⟩
      · exact ⟨v, hv, e.symm⟩
    · have h : ∀ v ∈ scr :: hist, v.getLsbD i = true := by
        intro v hv
        by_contra hc
        exact h0 ⟨v, hv, by simpa using hc⟩
      refine ⟨scr, by simp, ?_⟩
      have hs := h scr (by simp)
      have ha : hist.all (·.getLsbD i) = true := List.all_eq_true.2 fun v hv => h v (by simp [hv])
      simp [hs, ha]
  · have h : ∀ v ∈ scr :: hist, v.getLsbD i = false := by
      intro v hv
      by_contra hc
      exact h1 ⟨v, hv, by simpa using hc⟩
    refine ⟨scr, by simp, ?_⟩
    have hs := h scr (by simp)
    have ha : hist.any (·.getLsbD i) = false := List.any_eq_false.2 fun v hv => by simp [h v (by simp [hv])]
    simp [hs, ha]

/-- Every value a field has held can be drawn. -/
theorem drawnScr_complete (draw scr : Word) (hist : List Word) (i : Nat) (v : Word) (hv : v ∈ scr :: hist)
    (h : draw.getLsbD i = v.getLsbD i) : (drawnScr draw scr hist).getLsbD i = v.getLsbD i := by
  simp only [drawnScr, BitVec.getLsbD_or, BitVec.getLsbD_and, everSet_getLsbD, alwaysSet_getLsbD, h]
  cases hb : v.getLsbD i with
  | true =>
    have : (scr.getLsbD i || hist.any (·.getLsbD i)) = true := by
      rcases List.mem_cons.1 hv with rfl | hm
      · simp [hb]
      · rw [List.any_eq_true.2 ⟨v, hm, hb⟩, Bool.or_true]
    simp [this]
  | false =>
    have : (scr.getLsbD i && hist.all (·.getLsbD i)) = false := by
      rcases List.mem_cons.1 hv with rfl | hm
      · simp [hb]
      · rw [List.all_eq_false.2 ⟨v, hm, by simp [hb]⟩, Bool.and_false]
    simp [this]

/-! ### The hidden sets -/

theorem SifSet.has_add (t : SifSet) (v u : Bool) : (t.add v).has u = (t.has u || u == v) := by
  cases u <;> cases v <;> simp [SifSet.add, SifSet.has]

theorem SifSet.has_only (v u : Bool) : (SifSet.only v).has u = (u == v) := by
  cases u <;> cases v <;> rfl

theorem mem_histAdd (v w : Word) (hist : List Word) : w ∈ histAdd v hist ↔ w = v ∨ w ∈ hist := by
  induction hist with
  | nil => simp [histAdd]
  | cons u us ih =>
    simp only [histAdd]
    split
    · simp
    · split
      · subst v; simp
      · simp [ih]; tauto

/-- `scr_hist` keeps its one form. -/
theorem histAdd_ascending (v : Word) {hist : List Word} (h : hist.Pairwise (· < ·)) :
    (histAdd v hist).Pairwise (· < ·) := by
  induction hist with
  | nil => simp [histAdd]
  | cons u us ih =>
    rw [List.pairwise_cons] at h
    simp only [histAdd]
    split
    · rename_i hlt
      refine List.pairwise_cons.2 ⟨?_, List.pairwise_cons.2 h⟩
      intro w hw
      rcases List.mem_cons.1 hw with rfl | hm
      · exact hlt
      · exact BitVec.lt_trans hlt (h.1 w hm)
    · split
      · exact List.pairwise_cons.2 h
      · rename_i h1 h2
        refine List.pairwise_cons.2 ⟨?_, ih h.2⟩
        intro w hw
        rcases (mem_histAdd v w us).1 hw with rfl | hm
        · bv_omega
        · exact h.1 w hm

/-! ### The masks and the value written -/

/-- The bit of `RW_MASK` (R11). -/
theorem rwMask_getLsbD (m : Impl) {i : Nat} (hi : i < 32) :
    (rwMask m).getLsbD i = ((0x000032BF#32).getLsbD i || (m.haveRas && decide (i = 15)) || (m.haveEl2 && decide (i = 8))
      || (m.haveNet && decide (i = 6))) := by
  have h : ∀ r e n : Bool, ∀ j : Fin 32,
      (0x000032BF#32 ||| (if r then 0x8000#32 else 0) ||| (if e then 0x0100#32 else 0) ||| (if n then 0x0040#32 else 0)).getLsbD j.val
        = ((0x000032BF#32).getLsbD j.val || (r && decide (j.val = 15)) || (e && decide (j.val = 8)) || (n && decide (j.val = 6))) := by
    decide
  exact h m.haveRas m.haveEl2 m.haveNet ⟨i, hi⟩

/-- The bit of `RES0_MASK` (R11). -/
theorem res0Mask_getLsbD (m : Impl) {i : Nat} (hi : i < 32) : (res0Mask m).getLsbD i = !(rwMask m).getLsbD i := by
  simp [res0Mask, hi]

/-- A written bit (R62): bit 0 is held at 0 under the guard, a reserved bit is kept only where it is stored. -/
theorem writeValue_getLsbD (s : State) (v : Word) {i : Nat} (hi : i < 32) :
    (s.writeValue v).getLsbD i =
      (v.getLsbD i && ((rwMask s.impl).getLsbD i || decide (s.impl.res0Mode = .stored)) && !(s.nsGuard v && decide (i = 0))) := by
  have hm : (0xFFFFFFFE#32).getLsbD i = !decide (i = 0) := by
    have : ∀ j : Fin 32, (0xFFFFFFFE#32).getLsbD j.val = !decide (j.val = 0) := by decide
    exact this ⟨i, hi⟩
  unfold State.writeValue
  cases s.impl.res0Mode <;> cases s.nsGuard v <;>
    simp only [BitVec.getLsbD_and, BitVec.getLsbD_or, res0Mask_getLsbD s.impl hi, hm, if_true, if_false,
      Bool.false_eq_true] <;>
    cases v.getLsbD i <;> cases (rwMask s.impl).getLsbD i <;> simp

/-- Hardwired reserved bits are 0 in every written value (R28, R62). -/
theorem writeValue_res0 (s : State) (v : Word) (h : s.impl.res0Mode = .hardwired) :
    s.writeValue v &&& res0Mask s.impl = 0 := by
  apply BitVec.eq_of_getLsbD_eq
  intro i hi
  rw [BitVec.getLsbD_and, writeValue_getLsbD s v hi, res0Mask_getLsbD s.impl hi, h]
  cases (rwMask s.impl).getLsbD i <;> simp

/-! ### The access to SCR -/

/-- An access that gives a next state ended the run with the outcome of the access check, or the check allowed it and SCR
exists. -/
theorem scrAccess_eq_next {s a t : State} (h : scrAccess s a = .next t) :
    (∃ e, s.accessCheck = some e ∧ t = endWith e s) ∨ (s.accessCheck = none ∧ s.impl.scrExists = true ∧ t = a) := by
  unfold scrAccess at h
  split at h
  · rename_i e he
    exact .inl ⟨e, he, by simpa using h.symm⟩
  · rename_i he
    obtain ⟨hx, hn⟩ := inConfiguration_eq_next h
    exact .inr ⟨he, hx, by simpa using hn.symm⟩

theorem scrAccess_ended {s : State} {e : Ending} (h : s.accessCheck = some e) (a : State) :
    scrAccess s a = .next (endWith e s) := by
  simp [scrAccess, h]

theorem scrAccess_allowed {s : State} (h : s.accessCheck = none) (hx : s.impl.scrExists = true) (a : State) :
    scrAccess s a = .next a := by
  simp [scrAccess, h, inConfiguration, hx]

theorem accessCheck_eq_none (s : State) : s.accessCheck = none ↔ s.el = .el3 := by
  have h : ∀ a : AccessInputs, scrAccessCheck a = none ↔ a.el = .el3 := by
    intro a
    unfold scrAccessCheck
    repeat' split
    all_goals simp_all
  exact h s.accessInputs

theorem admittedA32_eq_next {cond rt : BitVec 4} {r : Result} {t : State} (h : admittedA32 cond rt r = .next t) :
    rtOkA32 rt = true ∧ cond = condAlways ∧ r = .next t := by
  unfold admittedA32 at h
  split at h
  · split at h
    · rename_i h1 h2
      exact ⟨h1, by simpa using h2, h⟩
    · simp at h
  · simp at h

theorem admittedT32_eq_next {rt : BitVec 4} {r : Result} {t : State} (h : admittedT32 rt r = .next t) :
    rtOkT32 rt = true ∧ r = .next t := by
  unfold admittedT32 at h
  split at h
  · exact ⟨‹_›, h⟩
  · simp at h

/-- A level of EL3 outside Monitor mode is a Secure one (R103). -/
theorem elUnder_eq_el3 (m : Impl) (mode : Mode) (scr : Word) (h : elUnder m mode scr = .el3) :
    mode = .monitor ∨ (m.scrExists = true ∧ secureUnder mode scr = true ∧ mode ≠ .user ∧ mode ≠ .hyp) := by
  cases mode <;> simp [elUnder] at h ⊢ <;> assumption

/-! ### Waiting, calling -/

/-- The one record of a Monitor trap that a record can be is `cause`, and then `p` holds. -/
def TrapsOnly (cause : TrapCause) (p : Prop) (e : Ending) : Prop := ∀ c, e = .monitorTrap c → c = cause ∧ p

/-- The record is no Monitor trap. -/
def NoTrap (e : Ending) : Prop := ∀ c, e ≠ .monitorTrap c

/-- What a WFE or WFI can leave (R70 to R72). -/
theorem waitState_cases (i : WaitInstr) (p : Bool) (s : State) :
    waitState i p s = complete s ∨ waitState i p s = keepWaiting s ∨
      ∃ e, waitState i p s = endWith e s ∧ TrapsOnly (.wait i) (s.monitorTrapApplies i.field = true) e := by
  unfold waitState
  split
  · exact .inl rfl
  split
  · exact .inl rfl
  split
  · exact .inr (.inr ⟨_, rfl, by intro c h; simp at h⟩)
  split
  · rename_i h
    split
    · exact .inr (.inr ⟨_, rfl, fun c e => ⟨by simpa using e.symm, h⟩⟩)
    · exact .inl rfl
  · unfold waitThenComplete
    split
    · exact .inl rfl
    · exact .inr (.inl rfl)

/-- The access check raises no Monitor trap (R60). -/
theorem accessCheck_noTrap {s : State} {e : Ending} (h : s.accessCheck = some e) : NoTrap e := by
  have : ∀ a : AccessInputs, ∀ e, scrAccessCheck a = some e → NoTrap e := by
    intro a e h c hc
    subst hc
    unfold scrAccessCheck at h
    repeat' split at h
    all_goals simp at h
  exact this s.accessInputs e h

/-- What an HVC can leave (R74, R75). -/
theorem hvcState_cases (s : State) : hvcState s = complete s ∨ ∃ e, hvcState s = endWith e s ∧ NoTrap e := by
  unfold hvcState
  repeat' split
  all_goals first
    | exact .inl rfl
    | exact .inr ⟨_, rfl, by intro c; simp⟩

/-- What an SMC can leave (R76, R77). -/
theorem smcState_cases (s : State) : smcState s = complete s ∨ ∃ e, smcState s = endWith e s ∧ NoTrap e := by
  unfold smcState
  repeat' split
  all_goals first
    | exact .inl rfl
    | exact .inr ⟨_, rfl, by intro c; simp⟩

/-- What an error-record access can leave (R78). -/
theorem execErrAccess_eq_next {reg : ErrReg} {dir : ErrDir} {s t : State} (h : execErrAccess reg dir s = .next t) :
    s.impl.scrExists = true ∧
      ∃ e, t = endWith e s ∧ TrapsOnly (.errAccess reg dir) (s.monitorTrapApplies .terr = true) e := by
  obtain ⟨hx, h⟩ := inConfiguration_eq_next h
  refine ⟨hx, ?_⟩
  split at h
  · simp at h
  split at h
  · simp at h
  split at h
  · exact ⟨_, by simpa using h.symm, by intro c e; simp at e⟩
  split at h
  · rename_i ht
    exact ⟨_, by simpa using h.symm, fun c e => ⟨by simpa using e.symm, ht⟩⟩
  · exact ⟨_, by simpa using h.symm, by intro c e; simp at e⟩

/-! ### The place of the program -/

/-- Where SCR does not exist, every mask is an input of the step. -/
theorem masked_of_absent_scr {s : State} (hx : s.impl.scrExists = false) (k : Async) :
    s.masked k = match k with | .irq => s.input.maskI | .fiq => s.input.maskOtherF | .ea => s.input.maskOtherA := by
  cases k <;> simp [State.masked, hx]

/-- The item placed for the next fetch is the one fetched. -/
theorem placeAt_get (item : ProgItem) (n : Nat) (ps : List ProgItem) : (placeAt item n ps)[n]? = some item := by
  induction n generalizing ps with
  | zero => cases ps <;> rfl
  | succ n ih => cases ps <;> simpa [placeAt] using ih _

/-- What `withFetchWord` places is what the next step fetches. -/
theorem withFetchWord_fetched (s : State) (nbits w : Nat) :
    (s.withFetchWord nbits w).fetched = some (.code (codeWordOfTable nbits w)) := placeAt_get _ _ _

end Sys2Proof.Machine
end

