-- ==== Sys2Proof/Laws/Exec.lean ====
section
/-! SUPPORT. Once, everything an instruction can do and everything a step can do. -/

namespace Sys2Proof.Machine

/-- Everything an instruction can do: end the run, complete, wait, read SCR, or write SCR. -/
inductive ExecDoes (i : Instr) (s : State) : State → Prop where
  | ends (e : Ending)
      (ht : ∀ c, e = .monitorTrap c → ∃ w, c = .wait w ∧ i.waitOf = some w ∧ s.monitorTrapApplies w.field = true) :
      ExecDoes i s (endWith e s)
  | completes (hr : i.mrcRt = none) (hw : i.mcrRt = none) (hx : s.impl.scrExists = true) : ExecDoes i s (complete s)
  | waits (w : WaitInstr) (hi : i.waitOf = some w) (hr : i.mrcRt = none) (hw : i.mcrRt = none)
      (hx : s.impl.scrExists = true) : ExecDoes i s (keepWaiting s)
  | reads (rt : BitVec 4) (hr : i.mrcRt = some rt) (hl : s.el = .el3) (hx : s.impl.scrExists = true) :
      ExecDoes i s (complete (s.setReg rt s.scr))
  | writes (rt : BitVec 4) (hw : i.mcrRt = some rt) (hl : s.el = .el3) (hx : s.impl.scrExists = true) :
      ExecDoes i s (complete (setScr (s.writeValue (s.reg rt)) s))

theorem readScr_does {i : Instr} {rt : BitVec 4} {s t : State} (hr : i.mrcRt = some rt) (h : readScr rt s = .next t) :
    ExecDoes i s t := by
  rcases scrAccess_eq_next h with ⟨e, he, rfl⟩ | ⟨hl, hx, rfl⟩
  · exact .ends e fun c h => absurd h (accessCheck_noTrap he c)
  · exact .reads rt hr ((accessCheck_eq_none s).1 hl) hx

theorem writeScr_does {i : Instr} {rt : BitVec 4} {s t : State} (hw : i.mcrRt = some rt) (h : writeScr rt s = .next t) :
    ExecDoes i s t := by
  rcases scrAccess_eq_next h with ⟨e, he, rfl⟩ | ⟨hl, hx, rfl⟩
  · exact .ends e fun c h => absurd h (accessCheck_noTrap he c)
  · exact .writes rt hw ((accessCheck_eq_none s).1 hl) hx

theorem waitFor_does {i : Instr} {w : WaitInstr} {p : Bool} {s t : State} (hr : i.mrcRt = none) (hw : i.mcrRt = none)
    (hi : i.waitOf = some w) (h : waitFor w p s = .next t) : ExecDoes i s t := by
  obtain ⟨hx, h⟩ := inConfiguration_eq_next h
  obtain rfl : waitState w p s = t := by simpa using h
  rcases waitState_cases w p s with e | e | ⟨_, e, ht⟩ <;> rw [e]
  · exact .completes hr hw hx
  · exact .waits w hi hr hw hx
  · exact .ends _ fun c h => ⟨w, (ht c h).1, hi, (ht c h).2⟩

theorem call_does {i : Instr} {s u t : State} (hr : i.mrcRt = none) (hw : i.mcrRt = none)
    (hu : u = complete s ∨ ∃ e, u = endWith e s ∧ NoTrap e) (h : inConfiguration s (.next u) = .next t) : ExecDoes i s t := by
  obtain ⟨hx, h⟩ := inConfiguration_eq_next h
  obtain rfl : u = t := by simpa using h
  rcases hu with rfl | ⟨_, rfl, hn⟩
  · exact .completes hr hw hx
  · exact .ends _ fun c h => absurd h (hn c)

/-- Everything an instruction can do. -/
theorem exec_does {i : Instr} {s t : State} (h : exec i s = .next t) : ExecDoes i s t := by
  cases i with
  | mrcA32 cond rt => exact readScr_does rfl (admittedA32_eq_next h).2.2
  | mcrA32 cond rt => exact writeScr_does rfl (admittedA32_eq_next h).2.2
  | mrcT32 rt => exact readScr_does rfl (admittedT32_eq_next h).2
  | mcrT32 rt => exact writeScr_does rfl (admittedT32_eq_next h).2
  | wfeA32 cond => exact waitFor_does rfl rfl rfl h
  | wfiA32 cond => exact waitFor_does rfl rfl rfl h
  | smcA32 cond imm4 =>
    refine call_does rfl rfl ?_ h
    split
    · exact smcState_cases s
    · exact .inl rfl
  | hvcA32 imm16 => exact call_does rfl rfl (hvcState_cases s) h
  | wfeT16 => exact waitFor_does rfl rfl rfl h
  | wfiT16 => exact waitFor_does rfl rfl rfl h
  | wfeW => exact waitFor_does rfl rfl rfl h
  | wfiW => exact waitFor_does rfl rfl rfl h
  | smcT32 imm4 => exact call_does rfl rfl (smcState_cases s) h
  | hvcT32 imm16 => exact call_does rfl rfl (hvcState_cases s) h

/-- Everything the PE can do in a step, from the state after the environment's part. -/
inductive ActDoes (s : State) : State → Prop where
  | goesOnWaiting (h : s.waiting = true) : ActDoes s (waitThenComplete s)
  | takes (k : Async) (hw : s.waiting = false) (hk : s.asyncTaken = some k) (hx : s.impl.scrExists = true) :
      ActDoes s (takeAsync k s)
  | fetchEnds (item : ProgItem) (hw : s.waiting = false) (hf : s.fetched = some item) (hp : s.fetchPermitted = false) :
      ActDoes s (endWith (.fetchNotPermitted s.pc) s)
  | runs (c : CodeWord) (i : Instr) (t : State) (hw : s.waiting = false) (hf : s.fetched = some (.code c))
      (hd : decode c = .ok i) (he : ExecDoes i s t) : ActDoes s t
  | accesses (reg : ErrReg) (dir : ErrDir) (e : Ending) (hw : s.waiting = false)
      (hf : s.fetched = some (.errAccess reg dir)) (hx : s.impl.scrExists = true)
      (ht : TrapsOnly (.errAccess reg dir) (s.monitorTrapApplies .terr = true) e) : ActDoes s (endWith e s)

theorem act_does {s t : State} (h : act s = .next t) : ActDoes s t := by
  unfold act at h
  split at h
  · rename_i hw
    obtain rfl : waitThenComplete s = t := by simpa using h
    exact .goesOnWaiting hw
  · rename_i hw
    have hw : s.waiting = false := by simpa using hw
    split at h
    · rename_i k hk
      obtain ⟨hx, h⟩ := inConfiguration_eq_next h
      obtain rfl : takeAsync k s = t := by simpa using h
      exact .takes k hw hk hx
    · unfold fetchAndRun at h
      split at h
      · simp at h
      · rename_i item hf
        split at h
        · unfold runItem at h
          split at h
          · split at h
            · exact .runs _ _ _ hw hf ‹_› (exec_does h)
            · simp at h
          · obtain ⟨hx, e, rfl, ht⟩ := execErrAccess_eq_next h
            exact .accesses _ _ e hw hf hx ht
        · rename_i hp
          obtain rfl : endWith (.fetchNotPermitted s.pc) s = t := by simpa using h
          exact .fetchEnds item hw hf (by simpa using hp)

/-- Everything a step can do: the run has not ended, the environment acts, the PE acts, the step is over. -/
theorem step_does {s t : State} (h : step s = .next t) : s.ended = none ∧ ∃ u, ActDoes (arrive s) u ∧ t = endStep u := by
  unfold step at h
  split at h
  · simp at h
  · rename_i he
    obtain ⟨u, hu, rfl⟩ := onNext_eq_next h
    exact ⟨by simpa using he, u, act_does hu, rfl⟩

/-! ### The step from what its conditions are -/

theorem step_of_running {s : State} (he : s.ended = none) : step s = onNext endStep (act (arrive s)) := by
  simp [step, he]

theorem act_of_waiting {s : State} (hw : s.waiting = true) : act s = .next (waitThenComplete s) := by
  simp [act, hw]

theorem act_of_taken {s : State} {k : Async} (hw : s.waiting = false) (hk : s.asyncTaken = some k)
    (hx : s.impl.scrExists = true) : act s = .next (takeAsync k s) := by
  simp [act, hw, hk, inConfiguration, hx]

theorem act_of_no_exception {s : State} (hw : s.waiting = false) (ha : s.asyncTaken = none) : act s = fetchAndRun s := by
  simp [act, hw, ha]

theorem fetchAndRun_of_permitted {s : State} {item : ProgItem} (hf : s.fetched = some item)
    (hp : s.fetchPermitted = true) : fetchAndRun s = runItem item s := by
  simp [fetchAndRun, hf, hp]

theorem fetchAndRun_of_forbidden {s : State} {item : ProgItem} (hf : s.fetched = some item)
    (hp : s.fetchPermitted = false) : fetchAndRun s = .next (endWith (.fetchNotPermitted s.pc) s) := by
  simp [fetchAndRun, hf, hp]

theorem runItem_of_decoded {s : State} {c : CodeWord} {i : Instr} (hd : decode c = .ok i) :
    runItem (.code c) s = exec i s := by
  simp [runItem, hd]

/-- What holds of a state and is kept by every step holds after any number of steps. -/
theorem run_keeps {P : State → Prop} (keeps : ∀ s t, P s → step s = .next t → P t) (n : Nat) {s t : State} (hs : P s)
    (h : Host.Core.run Sys2Proof.core n s = .next t) : P t := by
  induction n generalizing s with
  | zero =>
    cases h
    exact hs
  | succ n ih =>
    cases hu : step s with
    | next u =>
      have : Host.Core.run Sys2Proof.core (n + 1) s = Host.Core.run Sys2Proof.core n u := by
        simp [Host.Core.run, Sys2Proof.core, hu]
      exact ih (keeps s u hs hu) (this ▸ h)
    | fault r => simp [Host.Core.run, Sys2Proof.core, hu] at h
    | refused r => simp [Host.Core.run, Sys2Proof.core, hu] at h

end Sys2Proof.Machine
end

