-- ==== Sys2Proof/Laws/PerInstr.lean ====
section
/-! SUPPORT. What holds of each instruction as syntax, one lemma per constructor. -/

namespace Sys2Proof.Laws.EncodedSet

/-- The words of an instruction belong to its instruction set (R54, R55, R59), and an instruction whose form the meanings admit
is well formed (R56, R58). -/
def Statement (i : Instr) : Prop := (encode i).set = i.set ∧ (i.admitted = true → i.wf = true)

/-- The condition always is a condition an A32 word can have (R54, R56). -/
theorem condOk_of_always {cond : BitVec 4} (h : (cond == Machine.condAlways) = true) : condOk cond = true := by
  rw [beq_iff_eq] at h
  subst h
  rfl

theorem mrcA32 (cond rt : BitVec 4) : Statement (.mrcA32 cond rt) := by
  refine ⟨rfl, fun h => ?_⟩
  simp only [Instr.admitted, Bool.and_eq_true] at h
  simp [Instr.wf, condOk_of_always h.1, h.2]

theorem mcrA32 (cond rt : BitVec 4) : Statement (.mcrA32 cond rt) := by
  refine ⟨rfl, fun h => ?_⟩
  simp only [Instr.admitted, Bool.and_eq_true] at h
  simp [Instr.wf, condOk_of_always h.1, h.2]

theorem mrcT32 (rt : BitVec 4) : Statement (.mrcT32 rt) := ⟨rfl, id⟩

theorem mcrT32 (rt : BitVec 4) : Statement (.mcrT32 rt) := ⟨rfl, id⟩

theorem wfeA32 (cond : BitVec 4) : Statement (.wfeA32 cond) := ⟨rfl, id⟩

theorem wfiA32 (cond : BitVec 4) : Statement (.wfiA32 cond) := ⟨rfl, id⟩

theorem smcA32 (cond imm4 : BitVec 4) : Statement (.smcA32 cond imm4) := ⟨rfl, id⟩

theorem hvcA32 (imm16 : BitVec 16) : Statement (.hvcA32 imm16) := ⟨rfl, id⟩

theorem wfeT16 : Statement .wfeT16 := ⟨rfl, id⟩

theorem wfiT16 : Statement .wfiT16 := ⟨rfl, id⟩

theorem wfeW : Statement .wfeW := ⟨rfl, id⟩

theorem wfiW : Statement .wfiW := ⟨rfl, id⟩

theorem smcT32 (imm4 : BitVec 4) : Statement (.smcT32 imm4) := ⟨rfl, id⟩

theorem hvcT32 (imm16 : BitVec 16) : Statement (.hvcT32 imm16) := ⟨rfl, id⟩

end Sys2Proof.Laws.EncodedSet
end

