-- ==== Sys2Proof/Tests/Slice0.lean ====
section
/-! SUPPORT. Tests. Expected results are those of 95_test_vectors.md (named by section and row, or by program), or worked by hand
from the rule a comment names. -/

namespace Sys2Proof.Tests

open Sys2Proof Sys2Proof.Machine

/-! ### Well-formedness: each check refuses an ill-formed term -/

theorem test_wf_refuses_a32_condition_15 :
    (Instr.mrcA32 15 0).wf = false ∧ (Instr.mcrA32 15 0).wf = false ∧ (Instr.wfeA32 15).wf = false ∧
    (Instr.wfiA32 15).wf = false ∧ (Instr.smcA32 15 0).wf = false := by decide

theorem test_wf_refuses_a32_register_15 : (Instr.mrcA32 14 15).wf = false ∧ (Instr.mcrA32 14 15).wf = false := by decide

theorem test_wf_refuses_t32_register_13 : (Instr.mrcT32 13).wf = false ∧ (Instr.mcrT32 13).wf = false := by decide

theorem test_wf_refuses_t32_register_15 : (Instr.mrcT32 15).wf = false ∧ (Instr.mcrT32 15).wf = false := by decide

theorem test_wf_admits_the_last_registers :
    (Instr.mrcA32 14 14).wf = true ∧ (Instr.mcrA32 0 13).wf = true ∧ (Instr.mrcT32 14).wf = true ∧ (Instr.mcrT32 12).wf = true := by
  decide

/-! ### Decoding: words written from 30_encoding.md (95_test_vectors.md 2.7), every constructor -/

theorem test_decode_mrcA32 :
    decode (.a32 0b1110_1110_0001_0001_0000_1111_0001_0001) = .ok (.mrcA32 14 0) ∧
    decode (.a32 0xEE11EF11) = .ok (.mrcA32 14 14) ∧ decode (.a32 0xEE11DF11) = .ok (.mrcA32 14 13) := by decide
theorem test_decode_mcrA32 :
    decode (.a32 0b1110_1110_0000_0001_1100_1111_0001_0001) = .ok (.mcrA32 14 12) ∧
    decode (.a32 0x0E010F11) = .ok (.mcrA32 0 0) := by decide
theorem test_decode_mrcT32 : decode (.t32 0b1110_1110_0001_0001 0b0010_1111_0001_0001) = .ok (.mrcT32 2) := by decide
theorem test_decode_mcrT32 : decode (.t32 0b1110_1110_0000_0001 0b1110_1111_0001_0001) = .ok (.mcrT32 14) := by decide
theorem test_decode_wfeA32 : decode (.a32 0b1110_0011_0010_0000_1111_0000_0000_0010) = .ok (.wfeA32 14) := by decide
theorem test_decode_wfiA32 : decode (.a32 0b0001_0011_0010_0000_1111_0000_0000_0011) = .ok (.wfiA32 1) := by decide
theorem test_decode_smcA32 : decode (.a32 0b1110_0001_0110_0000_0000_0000_0111_1111) = .ok (.smcA32 14 15) := by decide
theorem test_decode_hvcA32 : decode (.a32 0b1110_0001_0100_1111_1111_1111_0111_1111) = .ok (.hvcA32 0xFFFF) := by decide
theorem test_decode_wfeT16 : decode (.t16 0b1011_1111_0010_0000) = .ok .wfeT16 := by decide
theorem test_decode_wfiT16 : decode (.t16 0b1011_1111_0011_0000) = .ok .wfiT16 := by decide
theorem test_decode_wfeW : decode (.t32 0b1111_0011_1010_1111 0b1000_0000_0000_0010) = .ok .wfeW := by decide
theorem test_decode_wfiW : decode (.t32 0b1111_0011_1010_1111 0b1000_0000_0000_0011) = .ok .wfiW := by decide
theorem test_decode_smcT32 : decode (.t32 0b1111_0111_1111_1010 0b1000_0000_0000_0000) = .ok (.smcT32 10) := by decide
theorem test_decode_hvcT32 : decode (.t32 0b1111_0111_1110_1010 0b1000_1011_1100_1101) = .ok (.hvcT32 0xABCD) := by decide

/-- 2.7: the words that are not in scope. -/
theorem test_decode_not_in_scope :
    [0xFE110F11#32, 0xEE110F10, 0xEE110F31, 0xEE310F11, 0xEE120F11, 0xEE110E11, 0xEE110F01, 0xE1A00000].all
      (fun w => decide (decode (.a32 w) = .error .notInScope)) = true := by decide

/-- 2.7: the registers that are not admitted. -/
theorem test_decode_bad_rt :
    decode (.a32 0xEE11FF11) = .error .badRt ∧ decode (.t32 0xEE11 0xDF11) = .error .badRt := by decide

/-- R57, R43: the same bytes in the two sets; a listing that ends inside an instruction. -/
theorem test_decode_bytes :
    decodeBytes .a32 [0x11, 0x0F, 0x11, 0xEE, 0xAA] = .ok (.mrcA32 14 0, [0xAA]) ∧
    decodeBytes .t32 [0x11, 0xEE, 0x11, 0x2F] = .ok (.mrcT32 2, []) ∧
    decodeBytes .t32 [0x20, 0xBF, 0x30] = .ok (.wfeT16, [0x30]) ∧
    decodeBytes .t32 [0x11, 0xEE, 0x11] = .error .truncated := by decide

/-- The numbers of spec/opcode_table.json. -/
theorem test_decode_table_words :
    decodeTableWord 32 0x0E110F11 = some (.mrcA32 0 0) ∧ decodeTableWord 32 0xEE010F11 = some (.mcrT32 0) ∧
    decodeTableWord 16 0xBF20 = some .wfeT16 ∧ decodeTableWord 32 0xF3AF8003 = some .wfiW ∧
    decodeTableWord 32 0x01600070 = some (.smcA32 0 0) ∧ decodeTableWord 32 0xE1400070 = some (.hvcA32 0) := by decide

/-- No two rows of one set share a word. -/
theorem test_patterns_are_disjoint :
    ([patMrcA32, patMcrA32, patWfeA32, patWfiA32, patSmcA32, patHvcA32].Pairwise
      fun p q => p.mask &&& q.mask &&& (p.value ^^^ q.value) ≠ 0) ∧
    ([patMrcT32, patMcrT32, patWfeW, patWfiW, patSmcT32, patHvcT32].Pairwise
      fun p q => p.mask &&& q.mask &&& (p.value ^^^ q.value) ≠ 0) := by decide

/-! ### Small states -/

/-- All options, hardwired, `immediate` (the conventions of 95_test_vectors.md). -/
def allOptions : Impl := { resetImpl with syncModel := .immediate, hce0El2Choice := .undefined, scdSecureChoice := .undefined }

/-- No options. -/
def noOptions : Impl := { allOptions with haveEl2 := false, haveRas := false, haveRasV84 := false, haveNet := false }

/-- An EL3 that cannot use AArch32: SCR does not exist (R2). -/
def noScr : Impl := { allOptions with el3AArch32 := false }

/-- A run about to start in a mode with a value of SCR. -/
def start (mode : Mode) (scr : Word) : State :=
  { State.reset with impl := allOptions, mode := mode, scr := scr, scrHist := [scr], sifTlb := .only (field .sif scr), env := [.quiet] }

/-- The same with another implementation. -/
def withImpl (m : Impl) (s : State) : State := { s with impl := m }

/-- The same with an input of the next step. -/
def withInput (i : StepInput) (s : State) : State := { s with env := [i] }

/-- The same with the controls. -/
def withControls (f : Controls → Controls) (s : State) : State := { s with ctl := f s.ctl }

/-- The same with a program of one place. -/
def withItem (p : ProgItem) (s : State) : State := { s with program := [p] }

/-- A step in which the instruction would sleep. -/
def sleepy : StepInput := { StepInput.quiet with wouldSleep := true }

/-- The record of an outcome that is a next state. -/
def endingOf : Result → Option (Option Ending)
  | .next t => some t.ended
  | .fault _ => none
  | .refused _ => none

/-- SCR and `pc` of an outcome that is a next state. -/
def scrOf : Result → Option (Word × Nat)
  | .next t => some (t.scr, t.pc)
  | .fault _ => none
  | .refused _ => none

/-- A register of an outcome that is a next state. -/
def regOf (r : BitVec 4) : Result → Option Word
  | .next t => some (t.reg r)
  | .fault _ => none
  | .refused _ => none

/-- `pc`, whether it waits, and the record, of an outcome that is a next state. -/
def flowOf : Result → Option (Nat × Bool × Option Ending)
  | .next t => some (t.pc, t.waiting, t.ended)
  | .fault _ => none
  | .refused _ => none

/-- The refusal of an outcome that is one. -/
def refusalIn : Result → Option Refusal
  | .next _ => none
  | .fault _ => none
  | .refused r => some r

/-! ### Masks, fields and the write (2.1 to 2.4) -/

/-- 2.1: 0xB3FF has all thirteen fields, 0x0131 has HCE, AW, FW, NS. -/
theorem test_fields :
    [Field.terr, .twe, .twi, .sif, .hce, .scd, .net, .aw, .fw, .ea, .fiq, .irq, .ns].map (field · 0x131) =
      [false, false, false, false, true, false, false, true, true, false, false, false, true] ∧
    [Field.terr, .twe, .twi, .sif, .hce, .scd, .net, .aw, .fw, .ea, .fiq, .irq, .ns].all (field · 0xB3FF) = true ∧
    [Field.terr, .twe, .twi, .sif, .hce, .scd, .net, .aw, .fw, .ea, .fiq, .irq, .ns].any (field · 0xFFFF4C00) = false := by
  decide

/-- 2.3, the row 0xDEADBEEF. -/
theorem test_writeValue :
    (start .monitor 0).writeValue 0xDEADBEEF = 0xB2EF#32 ∧
    (withImpl noOptions (start .monitor 0)).writeValue 0xDEADBEEF = 0x32AF#32 ∧
    (withImpl { noOptions with res0Mode := .stored } (start .monitor 0)).writeValue 0xDEADBEEF = 0xDEADBEEF#32 := by decide

/-- 2.4: the guard in Secure Supervisor mode, and its absence in Monitor mode, but for `NS_GUARD_IN_MONITOR`. -/
theorem test_nsGuard :
    let tge := withControls ({ · with hcrTGE := true })
    (tge (start .supervisor 0)).writeValue 0xFFFFFFFF = 0xB3FE#32 ∧
    (start .supervisor 0).writeValue 0x101 = 0x101#32 ∧
    (tge (start .monitor 0)).writeValue 0x101 = 0x101#32 ∧
    (tge (withImpl { allOptions with nsGuardInMonitor := true } (start .monitor 0))).writeValue 0x101 = 0x100#32 ∧
    (tge (withImpl { allOptions with haveEl2 := false } (start .supervisor 0))).writeValue 0x101 = 0x1#32 := by decide

/-! ### Instructions -/

/-- 2.6 row 1. -/
theorem test_exec_mrcA32_reads : regOf 0 (exec (.mrcA32 14 0) (start .monitor 0x131)) = some 0x131#32 := by decide
/-- 2.6 row 7; 2.7 and P8, a condition other than always. -/
theorem test_exec_mrcA32_user_and_conditional :
    endingOf (exec (.mrcA32 14 0) (start .user 1)) = some (some (.undefined none)) ∧
    refusalIn (exec (.mrcA32 1 0) (start .monitor 0)) = some .conditionalSysregAccess := by decide
/-- 2.6 row 3, and row 5 with the hidden sets; P3 with HSTR.T1 = 1 (2.6 row 6). -/
theorem test_exec_mcrA32_writes :
    scrOf (exec (.mcrA32 14 1) ((start .monitor 0).setReg 1 0x3001)) = some (0x3001#32, 1) ∧
    (match exec (.mcrA32 14 0) ((start .monitor 0).setReg 0 0x200) with
      | .next t => decide (t.sifTlb = ⟨true, true⟩) && decide (t.scrHist = [0#32, 0x200#32])
      | .fault _ => false
      | .refused _ => false) = true := by decide
theorem test_exec_mcrA32_hyp_trap :
    endingOf (exec (.mcrA32 14 0) (withControls ({ · with hstrT1 := true }) (start .supervisor 1))) = some (some (.hypTrap 3)) := by
  decide
/-- 2.6 row 2 with the T32 word; 2.6 row 8. -/
theorem test_exec_mrcT32_after_reset : regOf 7 (exec (.mrcT32 7) (start .supervisor 0)) = some 0#32 := by decide
theorem test_exec_mrcT32_hyp : endingOf (exec (.mrcT32 0) (start .hyp 0x101)) = some (some (.undefined none)) := by decide
/-- P6, `pc` = 0; 2.4 row 1. -/
theorem test_exec_mcrT32_writes :
    scrOf (exec (.mcrT32 2) ((start .monitor 0).setReg 2 0x2000)) = some (0x2000#32, 1) := by decide
theorem test_exec_mcrT32_guarded :
    scrOf (exec (.mcrT32 0) (withControls ({ · with hcrTGE := true }) ((start .supervisor 0).setReg 0 0x101))) =
      some (0x100#32, 1) := by decide
/-- 2.8 row 4, the trap; 2.8 row 9. -/
theorem test_exec_wfeA32_trapped :
    flowOf (exec (.wfeA32 14) (withInput { sleepy with trapTaken := true } (start .supervisor 0x2001))) =
      some (0, false, some (.monitorTrap (.wait .wfe))) := by decide
theorem test_exec_wfeA32_not_by_twi :
    flowOf (exec (.wfeA32 14) (withInput { sleepy with trapTaken := true } (start .supervisor 0x1001))) =
      some (0, true, none) := by decide
/-- 2.8 row 1 (a condition that fails); 2.8 row 5 for WFI. -/
theorem test_exec_wfiA32_fails_its_condition :
    flowOf (exec (.wfiA32 1) (withInput { sleepy with trapTaken := true, condPassed := false } (start .supervisor 0x1000))) =
      some (1, false, none) := by decide
theorem test_exec_wfiA32_trapped :
    flowOf (exec (.wfiA32 1) (withInput { sleepy with trapTaken := true } (start .supervisor 0x1000))) =
      some (0, false, some (.monitorTrap (.wait .wfi))) := by decide
/-- 2.8 row 8; 2.8 row 3. -/
theorem test_exec_wfeT16_monitor :
    flowOf (exec .wfeT16 (withInput { sleepy with trapTaken := true } (start .monitor 0x2000))) = some (0, true, none) := by decide
theorem test_exec_wfeT16_lower_trap :
    flowOf (exec .wfeT16 (withInput { sleepy with lowerTrapWFE := true, trapTaken := true } (start .supervisor 0x2001))) =
      some (0, false, some (.lowerELTrap .wfe)) := by decide
/-- 2.8 row 10 with a Wakeup event; 2.8 row 7 for WFI, completion. -/
theorem test_exec_wfiT16_wakes :
    flowOf (exec .wfiT16 (withInput { sleepy with wakeup := true } (start .supervisor 0))) = some (1, false, none) := by decide
theorem test_exec_wfiT16_completes :
    flowOf (exec .wfiT16 (withInput sleepy (start .hyp 0x1101))) = some (1, false, none) := by decide
/-- 2.8 rows 2 and 1, a T32 instruction that fails its condition check; the LowerTrap of WFI is not that of WFE (R70). -/
theorem test_exec_wfeW_completes :
    flowOf (exec .wfeW (start .supervisor 0x2000)) = some (1, false, none) ∧
    flowOf (exec .wfeW (withInput { sleepy with trapTaken := true, condPassed := false } (start .supervisor 0x2000))) =
      some (1, false, none) := by decide
theorem test_exec_wfeW_other_lower_trap :
    flowOf (exec .wfeW (withInput { sleepy with lowerTrapWFI := true } (start .supervisor 1))) = some (0, true, none) := by decide
/-- 2.8 row 6 for WFI; 2.8 row 9 for WFI. -/
theorem test_exec_wfiW_trapped :
    flowOf (exec .wfiW (withInput { sleepy with trapTaken := true } (start .user 0x1001))) =
      some (0, false, some (.monitorTrap (.wait .wfi))) := by decide
theorem test_exec_wfiW_not_by_twe :
    flowOf (exec .wfiW (withInput { sleepy with trapTaken := true } (start .supervisor 0x2001))) = some (0, true, none) := by decide

/-- 2.9 rows 6 and 5; rows 9 (no-operation) and 1. -/
theorem test_exec_hvcA32_enabled : endingOf (exec (.hvcA32 0) (start .supervisor 0x101)) = some (some .hvcEnabled) := by decide
theorem test_exec_hvcA32_monitor : endingOf (exec (.hvcA32 0) (start .monitor 0x101)) = some (some (.undefined none)) := by decide
theorem test_exec_hvcT32_nop :
    flowOf (exec (.hvcT32 0) (withImpl { allOptions with hce0El2Choice := .nop } (start .hyp 1))) = some (1, false, none) := by decide
theorem test_exec_hvcT32_no_el2 :
    endingOf (exec (.hvcT32 0) (withImpl noOptions (start .supervisor 0x101))) = some (some (.undefined none)) := by decide

/-- 2.10 rows 7 and 6; rows 8 and 9 (no-operation). -/
theorem test_exec_smcA32_undefined :
    endingOf (exec (.smcA32 14 0) (start .supervisor 0x81)) = some (some (.undefined (some .el1))) := by decide
theorem test_exec_smcA32_enabled : endingOf (exec (.smcA32 14 0) (start .monitor 0)) = some (some .smcEnabled) := by decide
theorem test_exec_smcT32_hyp :
    endingOf (exec (.smcT32 0) (start .hyp 0x81)) = some (some (.undefined (some .el2))) := by decide
theorem test_exec_smcT32_nop :
    flowOf (exec (.smcT32 0) (withImpl { allOptions with scdSecureChoice := .nop } (start .supervisor 0x80))) =
      some (1, false, none) := by decide

/-- 2.11 rows 4, 6, 1 and 2. -/
theorem test_errAccess :
    endingOf (execErrAccess .erxstatus .write (start .supervisor 0x8000)) =
      some (some (.monitorTrap (.errAccess .erxstatus .write))) ∧
    endingOf (execErrAccess .erridr .read (start .monitor 0x8000)) = some (some .errAccessProceeds) ∧
    refusalIn (execErrAccess .erridr .read (withImpl noOptions (start .monitor 0x8000))) = some .noRAS ∧
    refusalIn (execErrAccess .erxmisc4 .read (withImpl { allOptions with haveRasV84 := false } (start .monitor 0))) =
      some .noRASv84 := by decide

/-! ### Steps -/

/-- 2.12 row 8 and 2.13 rows 1 and 5: an IRQ routed to Hyp mode; an FIQ that CPSR.F masks in Secure state only. -/
theorem test_step_takes_exceptions :
    endingOf (step (withInput { StepInput.quiet with assertIRQ := true, take := some .irq, hypRouteIRQ := true } (start .supervisor 1))) =
      some (some (.takeIRQ .hyp)) ∧
    endingOf (step (withInput { StepInput.quiet with assertFIQ := true, take := some .fiq } (start .supervisor 5))) =
      some (some (.takeFIQ .monitor)) ∧
    (start .supervisor 4).masked .fiq = true := by decide

/-- 2.14 rows 1, 6 and 7. -/
theorem test_step_secure_fetch :
    let fromNs := withInput { StepInput.quiet with ns := true, sifDraw := true }
    let nop := withItem (.code (.t16 0xBF20))
    endingOf (step (nop (fromNs (start .supervisor 0x200)))) = some (some (.fetchNotPermitted 0)) ∧
    endingOf (step (nop (fromNs (start .supervisor 0x201)))) = some none ∧
    endingOf (step (nop (fromNs (start .monitor 0x201)))) = some (some (.fetchNotPermitted 0)) := by decide

/-- 2.17 row 1: under `relaxed` a field that has been 0 and 1 can be seen as either. -/
theorem test_relaxed_draws :
    let s := withImpl resetImpl { start .supervisor 0x1000 with scrHist := [0, 0x1000] }
    (withInput { StepInput.quiet with scrDraw := 0x1000 } s).governed .twi = true ∧ s.governed .twi = false ∧
    (withInput { StepInput.quiet with scrDraw := 0xFFFFFFFF } s).governing = 0x1000#32 := by decide

/-- 2.16: what reset leaves, and the first instruction after it through the host's interface. -/
theorem test_step_first_instruction :
    State.reset.scr &&& 0xB3FF#32 = 0 ∧ State.reset.el = .el3 ∧ State.reset.isSecure = true ∧
    scrOf (step (State.reset.withFetchWord 32 0xEE110F11)) = some (0#32, 1) ∧
    endingOf (step (State.reset.withFetchWord 32 0xE1600070)) = some (some .smcEnabled) ∧
    endingOf (step (State.reset.withFetchWord 32 0xE1400070)) = some (some (.undefined none)) ∧
    flowOf (step (State.reset.withFetchWord 16 0xBF30)) = some (1, false, none) := by decide

/-! ### Witnesses: for each statement that has hypotheses, states and operands that meet them together -/

/-- The outcome is a next state with the property. -/
def nextWith (p : State → Bool) : Result → Bool
  | .next t => p t
  | .fault _ => false
  | .refused _ => false

theorem of_nextWith {p : State → Bool} {r : Result} (h : nextWith p r = true) : ∃ t, r = .next t ∧ p t = true := by
  cases r with
  | next t => exact ⟨t, rfl, h⟩
  | fault r => exact absurd h (by simp [nextWith])
  | refused r => exact absurd h (by simp [nextWith])

/-- A run of one WFE (16-bit) about to start. -/
def oneWfe (mode : Mode) (scr : Word) : State := withItem (.code (.t16 0xBF20)) (start mode scr)

theorem oneWfe_inv : (oneWfe .supervisor 0x200).Inv :=
  ⟨by decide, by decide, by decide, by decide, by decide, by decide,
    fun _ v hv => by obtain rfl := List.mem_singleton.1 hv; decide, by decide, by decide⟩

theorem test_witness_DecodeOfEncodeIsTheInstruction :
    (Instr.mrcA32 14 14).wf = true ∧ (Instr.mcrA32 0 0).wf = true ∧ (Instr.mrcT32 12).wf = true ∧ (Instr.mcrT32 14).wf = true ∧
    (Instr.wfeA32 14).wf = true ∧ (Instr.smcA32 0 15).wf = true ∧ (Instr.hvcA32 0xFFFF).wf = true := by decide

theorem test_witness_EncodeOfDecodeIsTheWord : decode (.a32 0xEE11EF11) = .ok (.mrcA32 14 14) := by decide

theorem test_witness_StoredBytesDecode : (Instr.hvcT32 0xFFFF).wf = true ∧ Instr.wfeT16.wf = true := by decide

theorem test_witness_OtherWordsAreRefusedByName :
    (0xF0000000#32).extractLsb' 28 4 = 15#4 ∧ (14#4 ≠ 15#4) ∧ (13#4 = 13#4 ∨ 13#4 = 15#4) ∧ isWide 0xE800 = true ∧
    isWide 0xFFFF = true ∧ isWide 0xE7FF = false ∧ isWide 0 = false := by decide

theorem test_witness_StepRunsTheDecodedInstruction :
    let s := oneWfe .supervisor 0
    s.ended = none ∧ s.waiting = false ∧ (arrive s).asyncTaken = none ∧ (arrive s).fetchPermitted = true ∧
    s.program[s.pc]? = some (.code (.t16 0xBF20)) ∧ decode (.t16 0xBF20) = .ok .wfeT16 := by decide

theorem test_witness_StepStopsWhereTheRunIsOver :
    (endWith .smcEnabled (start .monitor 0)).ended = some .smcEnabled ∧
    (let s := { oneWfe .monitor 0 with pc := 1 }
     s.ended = none ∧ s.waiting = false ∧ (arrive s).asyncTaken = none ∧ s.program.length ≤ s.pc) := by decide

/-- The three kinds, each asserted in the step that takes it, with nothing masking it. -/
def takesIrq : StepInput := { StepInput.quiet with assertIRQ := true, take := some .irq }
def takesFiq : StepInput := { StepInput.quiet with assertFIQ := true, take := some .fiq }
def takesEa : StepInput := { StepInput.quiet with assertEA := true, take := some .ea }

theorem test_witness_StepTakesAnEnabledException :
    [(Async.irq, takesIrq), (.fiq, takesFiq), (.ea, takesEa)].all (fun p =>
      let s := withInput p.2 (oneWfe .supervisor 0)
      decide (s.ended = none) && !s.waiting && s.impl.scrExists && decide (s.input.take = some p.1)
        && (arrive s).isPending p.1 && !(arrive s).masked p.1) = true := by decide

theorem test_witness_PendingUntilTaken :
    (let s := withInput takesFiq (oneWfe .supervisor 4)
     (∃ t, step s = .next t) ∧ (arrive s).isPending .fiq = true ∧ (arrive s).masked .fiq = true) ∧
    (let s := withInput takesIrq (oneWfe .supervisor 0)
     (∃ t, step s = .next t ∧ t.ended = some (takenEnding .irq .irq)) ∧ (arrive s).isPending .irq = true) := by
  refine ⟨⟨?_, by decide, by decide⟩, ?_, by decide⟩
  · exact (of_nextWith (p := fun _ => true) (by decide)).imp fun _ h => h.1
  · exact (of_nextWith (p := fun t => decide (t.ended = some (takenEnding .irq .irq))) (by decide)).imp
      fun _ h => ⟨h.1, by simpa using h.2⟩

/-- A run of one WFE from Non-secure memory, with a 1 drawn for SIF. -/
def fromNs (mode : Mode) (scr : Word) : State :=
  withInput { StepInput.quiet with ns := true, sifDraw := true } (oneWfe mode scr)

theorem test_witness_SecureFetchUnderSif :
    [fromNs .supervisor 0x200, oneWfe .supervisor 0x200, fromNs .supervisor 0x201, fromNs .monitor 0].all (fun s =>
      decide (s.ended = none) && !s.waiting && s.impl.scrExists && decide ((arrive s).asyncTaken = none)
        && decide (s.program[s.pc]? = some (.code (.t16 0xBF20)))) = true ∧
    ((fromNs .supervisor 0x200).governedSecure = true ∧ (fromNs .supervisor 0x200).input.ns = true ∧
      (arrive (fromNs .supervisor 0x200)).sifEff = true) ∧
    (oneWfe .supervisor 0x200).input.ns = false ∧ (fromNs .supervisor 0x201).governedSecure = false ∧
    (arrive (fromNs .monitor 0)).sifEff = false :=
  ⟨by decide, by decide, by decide, by decide, by decide⟩

theorem test_witness_EffectiveSifIsHeld :
    let s := { withInput { StepInput.quiet with sifDraw := true } (start .supervisor 0) with sifTlb := ⟨true, true⟩ }
    s.sifTlb.has true = true ∧ s.sifTlb.has false = true ∧ s.input.sifDraw = true := by decide

theorem test_witness_SifTlbNeverShrinks :
    let s := oneWfe .supervisor 0x200
    (∃ t, step s = .next t) ∧ s.tick ∉ s.impl.tlbFlushedAt ∧ s.sifTlb.has true = true := by
  refine ⟨?_, by decide, by decide⟩
  exact (of_nextWith (p := fun _ => true) (by decide)).imp fun _ h => h.1

theorem test_witness_StepKeepsTheInvariant :
    (oneWfe .supervisor 0x200).Inv ∧ ∃ t, step (oneWfe .supervisor 0x200) = .next t := by
  refine ⟨oneWfe_inv, ?_⟩
  exact (of_nextWith (p := fun _ => true) (by decide)).imp fun _ h => h.1

theorem test_witness_EveryResetMeetsTheInvariant :
    (start .monitor 0x1).impl.haveRas = true ∧ (start .monitor 0x1).impl.scrExists = true ∧ (start .monitor 0x1).mode ≠ .hyp := by
  decide

theorem test_witness_ResetLeavesTheNamedFieldsZero :
    (start .supervisor 0x1).impl.res0Mode = .hardwired ∧ (start .supervisor 0x1).impl.scrExists = true ∧
    (start .supervisor 0x1).mode ≠ .user ∧ (start .supervisor 0x1).mode ≠ .hyp := by decide

/-- The inputs of the access check at EL1, from E, A2, A3, H64, H32, N, S (2.5). -/
def atEl1 (e a2 a3 h64 h32 n s : Bool) : AccessInputs := ⟨.el1, e, a2, a3, h64, h32, n, s⟩

/-- The full tree of 2.5, row by row; it is also a witness of each clause of `AccessCheckArms`. -/
theorem test_witness_AccessCheckArms :
    scrAccessCheck (atEl1 true false true true false true false) = some (.systemAccessTrapA64 .el2 3) ∧
    scrAccessCheck (atEl1 true false true true true false true) = some (.systemAccessTrapA64 .el2 3) ∧
    scrAccessCheck (atEl1 true true true false true false false) = some (.hypTrap 3) ∧
    scrAccessCheck (atEl1 true true true false false false false) = some (.undefined none) ∧
    scrAccessCheck (atEl1 true false true false false false true) = some (.systemAccessTrapA64 .el2 3) ∧
    scrAccessCheck (atEl1 false false false false false false false) = some (.systemAccessTrapA64 .el3 3) ∧
    scrAccessCheck (atEl1 false true false false false false true) = some (.systemAccessTrapA64 .el3 3) ∧
    scrAccessCheck (atEl1 true false false false false true false) = some (.undefined none) ∧
    scrAccessCheck (atEl1 true true false false false true false) = some (.undefined none) ∧
    scrAccessCheck (atEl1 false false true false false false false) = some (.undefined none) ∧
    scrAccessCheck (atEl1 false true true false true false false) = some (.undefined none) ∧
    scrAccessCheck { atEl1 true true true true true true true with el := .el0 } = some (.undefined none) ∧
    scrAccessCheck { atEl1 true true true true true true true with el := .el2 } = some (.undefined none) ∧
    scrAccessCheck { atEl1 true true true true true true true with el := .el3 } = none ∧
    (start .irq 1).impl.scrExists = true := by decide

/-- The reduced table of 2.5; it is also a witness of each clause of `AccessCheckByMode`. -/
theorem test_witness_AccessCheckByMode :
    let t1 := withControls ({ · with hstrT1 := true })
    (t1 (start .user 0)).accessCheck = some (.undefined none) ∧ (t1 (start .user 1)).accessCheck = some (.undefined none) ∧
    (t1 (start .supervisor 1)).accessCheck = some (.hypTrap 3) ∧ (start .supervisor 1).accessCheck = some (.undefined none) ∧
    (t1 (withImpl noOptions (start .supervisor 1))).accessCheck = some (.undefined none) ∧
    (t1 (start .irq 1)).accessCheck = some (.hypTrap 3) ∧ (t1 (start .hyp 1)).accessCheck = some (.undefined none) ∧
    (t1 (start .supervisor 0)).accessCheck = none ∧ (start .fiq 0).accessCheck = none ∧
    (start .monitor 0).accessCheck = none ∧ (t1 (start .monitor 1)).accessCheck = none := by decide

theorem test_witness_NoScrNoAccess :
    let s := withImpl noScr (start .supervisor 0)
    s.impl.scrExists = false ∧ s.mode ≠ .monitor ∧ (Instr.mrcA32 14 0).admitted = true ∧ (Instr.mrcA32 14 0).mrcRt ≠ none ∧
    (Instr.mcrT32 0).admitted = true ∧ (Instr.mcrT32 0).mcrRt ≠ none ∧ Instr.wfeW.admitted = true ∧ Instr.wfeW.mrcRt = none ∧
    Instr.wfeW.mcrRt = none := by decide

/-- 2.15; each clause, with NS 0 and NS 1. -/
theorem test_witness_SecurityStateAndLevel :
    [start .monitor 0, start .monitor 1, start .supervisor 0, start .supervisor 1, start .user 0, start .user 1, start .hyp 1].map
        (fun s => (s.isSecure, s.el)) =
      [(true, .el3), (true, .el3), (true, .el3), (false, .el1), (true, .el0), (false, .el0), (false, .el2)] ∧
    (start .supervisor 0).impl.scrExists = true := by decide

theorem test_witness_HypIsNonSecureUnderEveryDraw :
    (oneWfe .hyp 1).Inv ∧ (oneWfe .hyp 1).mode = .hyp :=
  ⟨⟨by decide, by decide, fun _ v hv => by obtain rfl := List.mem_singleton.1 hv; decide, by decide, by decide, by decide,
    fun _ v hv => by obtain rfl := List.mem_singleton.1 hv; decide, by decide, by decide⟩, by decide⟩

theorem test_witness_MrcReadsScr :
    (start .supervisor 0).impl.scrExists = true ∧ (start .supervisor 0).el = .el3 ∧ (start .monitor 1).el = .el3 ∧
    rtOkA32 14 = true ∧ rtOkA32 0 = true ∧ rtOkT32 14 = true ∧ rtOkT32 12 = true := by decide

theorem test_witness_McrWritesScr :
    (start .system 0).impl.scrExists = true ∧ (start .system 0).el = .el3 ∧ rtOkA32 13 = true ∧ rtOkT32 0 = true := by decide

theorem test_witness_AccessBelowEl3EndsTheRun :
    (Instr.mrcT32 0).admitted = true ∧ (Instr.mrcT32 0).mrcRt ≠ none ∧ (start .supervisor 1).el ≠ .el3 ∧
    (Instr.mcrA32 14 0).admitted = true ∧ (Instr.mcrA32 14 0).mcrRt ≠ none ∧ (start .user 0).el ≠ .el3 := by decide

theorem test_witness_UnadmittedAccessesStop :
    rtOkA32 14 = true ∧ (13#4 ≠ 14#4) ∧ (15#4 = 15#4) ∧ (13#4 = 13#4 ∨ 13#4 = 15#4) := by decide

theorem test_witness_WriteValueBits : 0 < 32 ∧ 31 < 32 := by decide

/-- The guard holds in the first state; the bits above NS are witnessed by bit 1 and bit 15. -/
theorem test_witness_NsGuardHoldsNsAtZero :
    let s := withControls ({ · with hcrTGE := true }) ((start .supervisor 0).setReg 0 0x101)
    s.impl.scrExists = true ∧ s.el = .el3 ∧ rtOkA32 0 = true ∧ rtOkT32 0 = true ∧ s.nsGuard (s.reg 0) = true ∧
    (rwMask s.impl).getLsbD 1 = true ∧ (rwMask s.impl).getLsbD 15 = true := by decide

theorem test_witness_WriteBackChangesNothing :
    let s := (oneWfe .supervisor 0x200).setReg 14 0x200
    s.Inv ∧ s.impl.scrExists = true ∧ s.el = .el3 ∧ s.reg 14 = s.scr ∧ rtOkA32 14 = true ∧ rtOkT32 14 = true := by
  refine ⟨?_, by decide, by decide, by decide, by decide, by decide⟩
  obtain ⟨h1, h2, h3, h4, h5, h6, h7, h8, h9⟩ := oneWfe_inv
  exact ⟨h1, h2, h3, h4, h5, h6, h7, h8, h9⟩

theorem test_witness_ReadAfterWrite :
    (start .monitor 1).impl.scrExists = true ∧ (start .monitor 1).mode = .monitor ∧ rtOkA32 0 = true ∧ rtOkA32 14 = true := by
  decide

theorem test_witness_WritingNsLeavesSecureState :
    (let s := (start .supervisor 0).setReg 0 1
     s.impl.scrExists = true ∧ rtOkA32 0 = true ∧ field .ns (s.reg 0) = true ∧ s.mode ≠ .user ∧ s.mode ≠ .hyp ∧
     s.mode ≠ .monitor ∧ field .ns s.scr = false ∧ s.hcrTGE = false ∧ (Instr.mrcT32 0).admitted = true ∧
     (Instr.mrcT32 0).mrcRt ≠ none) ∧
    (let s := (start .monitor 0).setReg 0 1
     s.impl.scrExists = true ∧ field .ns (s.reg 0) = true ∧ s.mode = .monitor) := by decide

theorem test_witness_WaitCompletesAtOnce :
    Instr.wfeW.waitOf = some .wfe ∧ (Instr.wfiA32 0).waitOf = some .wfi ∧ (start .supervisor 0).impl.scrExists = true ∧
    (start .supervisor 0).input.wouldSleep = false ∧
    (Instr.wfiA32 0).passes (withInput { sleepy with condPassed := false } (start .supervisor 0)) = false ∧
    Instr.wfeT16.passes (withInput { sleepy with condPassed := false } (start .supervisor 0)) = false := by decide

theorem test_witness_LowerTrapHasPriority :
    let s := withInput { sleepy with lowerTrapWFE := true, lowerTrapWFI := true } (start .supervisor 0x3001)
    Instr.wfeT16.waitOf = some .wfe ∧ Instr.wfiT16.waitOf = some .wfi ∧ s.impl.scrExists = true ∧ Instr.wfeT16.passes s = true ∧
    Instr.wfiT16.passes s = true ∧ s.input.wouldSleep = true ∧ s.lowerTrap .wfe = true ∧ s.lowerTrap .wfi = true := by decide

theorem test_witness_MonitorTrapOrCompletion :
    [withInput { sleepy with trapTaken := true } (start .user 0x3000), withInput sleepy (start .hyp 0x3001)].all (fun s =>
      s.impl.scrExists && Instr.wfeT16.passes s && (Instr.wfiA32 1).passes s && s.input.wouldSleep && !s.lowerTrap .wfe
        && !s.lowerTrap .wfi && s.governed .twe && s.governed .twi && decide (s.mode ≠ .monitor)) = true ∧
    (withInput { sleepy with trapTaken := true } (start .user 0x3000)).input.trapTaken = true ∧
    (withInput sleepy (start .hyp 0x3001)).input.trapTaken = false := by decide

theorem test_witness_UntrappedWaitThenCompletes :
    [withInput { sleepy with wakeup := true } (start .monitor 0x3000), withInput { sleepy with waitEnds := true } (start .user 0),
      withInput sleepy (start .supervisor 0)].all (fun s =>
      s.impl.scrExists && Instr.wfeT16.passes s && (Instr.wfiA32 14).passes s && s.input.wouldSleep && !s.lowerTrap .wfe
        && !s.lowerTrap .wfi && ((!s.governed .twe && !s.governed .twi) || decide (s.mode = .monitor))) = true ∧
    (withInput { sleepy with wakeup := true } (start .monitor 0x3000)).input.wakeup = true ∧
    (withInput { sleepy with waitEnds := true } (start .user 0)).input.waitEnds = true ∧
    (withInput sleepy (start .supervisor 0)).input.wakeup = false ∧
    (withInput sleepy (start .supervisor 0)).input.waitEnds = false := by decide

theorem test_witness_WaitGoesOn :
    let s := keepWaiting (oneWfe .supervisor 0)
    s.ended = none ∧ s.waiting = true ∧ s.input.wakeup = false ∧ s.input.waitEnds = false ∧
    (withInput { sleepy with wakeup := true } s).waiting = true ∧ (withInput { sleepy with wakeup := true } s).ended = none ∧
    (withInput { sleepy with wakeup := true } s).input.wakeup = true := by decide

theorem test_witness_MonitorTrapCauses :
    (∃ t, step (withInput { sleepy with trapTaken := true } (oneWfe .supervisor 0x2000)) = .next t ∧
      t.ended = some (.monitorTrap (.wait .wfe))) ∧
    (∃ t, step (withInput { sleepy with trapTaken := true } (withItem (.code (.a32 0xE320F003)) (start .user 0x1001))) = .next t ∧
      t.ended = some (.monitorTrap (.wait .wfi))) ∧
    (∃ t, step (withItem (.errAccess .erxmisc7 .read) (start .supervisor 0x8001)) = .next t ∧
      t.ended = some (.monitorTrap (.errAccess .erxmisc7 .read))) := by
  refine ⟨?_, ?_, ?_⟩
  · exact (of_nextWith (p := fun t => decide (t.ended = some (.monitorTrap (.wait .wfe)))) (by decide)).imp
      fun _ h => ⟨h.1, by simpa using h.2⟩
  · exact (of_nextWith (p := fun t => decide (t.ended = some (.monitorTrap (.wait .wfi)))) (by decide)).imp
      fun _ h => ⟨h.1, by simpa using h.2⟩
  · exact (of_nextWith (p := fun t => decide (t.ended = some (.monitorTrap (.errAccess .erxmisc7 .read)))) (by decide)).imp
      fun _ h => ⟨h.1, by simpa using h.2⟩

theorem test_witness_HvcAlwaysUndefinedThere :
    (start .supervisor 0x100).impl.scrExists = true ∧ (withImpl noOptions (start .hyp 1)).impl.haveEl2 = false ∧
    (start .user 0x101).mode = .user ∧ (start .monitor 0x101).governedSecure = true := by decide

theorem test_witness_HvcUnderHce :
    [start .supervisor 0x101, start .hyp 0x101, start .supervisor 1, start .hyp 1].all (fun s =>
      s.impl.scrExists && s.impl.haveEl2 && decide (s.mode ≠ .user) && !s.governedSecure) = true ∧
    (start .supervisor 0x101).governed .hce = true ∧ (start .hyp 0x101).governed .hce = true ∧
    (start .supervisor 1).governed .hce = false ∧ (start .supervisor 1).mode ≠ .hyp ∧ (start .hyp 1).governed .hce = false ∧
    (start .hyp 1).mode = .hyp := by decide

theorem test_witness_SmcUndefinedAtPl0 :
    (Instr.smcA32 14 0).passes (start .user 0x80) = true ∧ (Instr.smcT32 0).passes (start .user 1) = true ∧
    (start .user 0x80).impl.scrExists = true ∧ (start .user 0x80).mode = .user := by decide

theorem test_witness_SmcUnderScd :
    [start .supervisor 0, start .supervisor 0x81, start .hyp 0x81, start .monitor 0x81].all (fun s =>
      (Instr.smcA32 0 15).passes s && s.impl.scrExists && decide (s.mode ≠ .user)) = true ∧
    (start .supervisor 0).governed .scd = false ∧ (start .supervisor 0x81).governed .scd = true ∧
    (start .supervisor 0x81).governedSecure = false ∧ (start .hyp 0x81).governedSecure = false ∧
    (start .monitor 0x81).governed .scd = true ∧ (start .monitor 0x81).governedSecure = true := by decide

theorem test_witness_SmcFailingItsConditionGoesOn :
    let s := withInput { StepInput.quiet with condPassed := false } (start .supervisor 0)
    s.impl.scrExists = true ∧ (0#4 ≠ 14#4) ∧ s.input.condPassed = false := by decide

theorem test_witness_ErrAccessUnderTerr :
    (start .user 0x8001).impl.scrExists = true ∧ (withImpl noOptions (start .user 1)).impl.haveRas = false ∧
    (let m := (withImpl { allOptions with haveRasV84 := false } (start .user 1)).impl
     m.scrExists = true ∧ m.haveRas = true ∧ m.haveRasV84 = false) ∧
    (ErrReg.erxmisc4 = .erxmisc4 ∨ ErrReg.erxmisc4 = .erxmisc5) ∧ (start .user 0x8001).impl.haveRas = true ∧
    (start .user 0x8001).impl.haveRasV84 = true ∧
    (ErrReg.erxmisc3 ≠ .erxmisc4 ∧ ErrReg.erxmisc3 ≠ .erxmisc5 ∧ ErrReg.erxmisc3 ≠ .erxmisc6 ∧ ErrReg.erxmisc3 ≠ .erxmisc7) := by
  decide

theorem test_witness_IrqRouting :
    let s := withInput takesIrq (oneWfe .supervisor 3)
    s.ended = none ∧ s.waiting = false ∧ s.impl.scrExists = true ∧ s.input.take = some .irq ∧ s.input.assertIRQ = true ∧
    s.input.maskI = false := by decide

theorem test_witness_FiqRouting :
    let s := withInput takesFiq (oneWfe .supervisor 5)
    s.ended = none ∧ s.waiting = false ∧ s.impl.scrExists = true ∧ s.input.take = some .fiq ∧ s.input.assertFIQ = true ∧
    s.masked .fiq = false := by decide

theorem test_witness_ExternalAbortRouting :
    let s := withInput takesEa (oneWfe .supervisor 9)
    s.ended = none ∧ s.waiting = false ∧ s.impl.scrExists = true ∧ s.input.take = some .ea ∧ s.input.assertEA = true ∧
    s.masked .ea = false := by decide

theorem test_witness_FiqMasking :
    (start .supervisor 0x15).impl.scrExists = true ∧ (start .supervisor 0x15).governed .fiq = true ∧
    ((start .supervisor 0x15).impl.haveEl2 && (start .supervisor 0x15).ctl.hcrFMO) = false ∧
    (start .supervisor 0x11).governed .fiq = false ∧
    (let s := withControls ({ · with hcrFMO := true }) (start .supervisor 5)
     (s.impl.haveEl2 && s.ctl.hcrFMO) = true) ∧
    (withImpl noScr (start .supervisor 4)).impl.scrExists = false ∧
    (let s := { oneWfe .supervisor 4 with pend := ⟨false, true, false⟩ }
     s.masked .fiq = true ∧ s.pend.fiq = true ∧ ∃ t, step s = .next t) := by
  refine ⟨by decide, by decide, by decide, by decide, by decide, by decide, by decide, by decide, ?_⟩
  exact (of_nextWith (p := fun _ => true) (by decide)).imp fun _ h => h.1

theorem test_witness_ExternalAbortMasking :
    (start .supervisor 0x29).impl.scrExists = true ∧ (start .supervisor 0x29).governed .ea = true ∧
    ((start .supervisor 0x29).impl.haveEl2 && (start .supervisor 0x29).ctl.hcrAMO) = false ∧
    (start .supervisor 0x21).governed .ea = false ∧
    (let s := withControls ({ · with hcrAMO := true }) (start .supervisor 9)
     (s.impl.haveEl2 && s.ctl.hcrAMO) = true) ∧
    (withImpl noScr (start .supervisor 8)).impl.scrExists = false ∧
    (let s := { oneWfe .supervisor 8 with pend := ⟨false, false, true⟩ }
     s.masked .ea = true ∧ s.pend.ea = true ∧ ∃ t, step s = .next t) := by
  refine ⟨by decide, by decide, by decide, by decide, by decide, by decide, by decide, by decide, ?_⟩
  exact (of_nextWith (p := fun _ => true) (by decide)).imp fun _ h => h.1

/-- The clauses with premises: an MRC and another register; an instruction that is no MCR, and moves `pc` on; a WFE that begins to
wait; one that ends the run. -/
theorem test_witness_InstructionFrame :
    (∃ t, exec (.mrcA32 14 0) (start .monitor 1) = .next t ∧ t.pc = (start .monitor 1).pc + 1) ∧
    (Instr.mrcA32 14 0).mrcRt ≠ some 1 ∧ (Instr.mrcA32 14 0).mcrRt = none ∧
    (∃ t, exec .wfeW (withInput sleepy (start .monitor 0)) = .next t ∧ t.waiting = true) ∧
    (withInput sleepy (start .monitor 0)).waiting = false ∧
    ∃ t, exec (.smcT32 0) (start .monitor 0) = .next t ∧ t.ended ≠ (start .monitor 0).ended := by
  refine ⟨?_, by decide, by decide, ?_, by decide, ?_⟩
  · exact (of_nextWith (p := fun t => decide (t.pc = (start .monitor 1).pc + 1)) (by decide)).imp
      fun _ h => ⟨h.1, by simpa using h.2⟩
  · exact of_nextWith (p := fun t => t.waiting) (by decide)
  · exact (of_nextWith (p := fun t => decide (t.ended ≠ (start .monitor 0).ended)) (by decide)).imp
      fun _ h => ⟨h.1, by simpa using h.2⟩

theorem test_witness_StepKeepsWhatIsFixed : ∃ t, step (oneWfe .supervisor 0) = .next t :=
  (of_nextWith (p := fun _ => true) (by decide)).imp fun _ h => h.1

/-- A run of one MCR from `r0`. -/
def oneMcr (mode : Mode) (scr v : Word) : State := withItem (.code (.a32 0xEE010F11)) ((start mode scr).setReg 0 v)

theorem test_witness_OnlyAnMcrAtEl3ChangesScr :
    ∃ t, step (oneMcr .supervisor 0 0x101) = .next t ∧ t.scr ≠ (oneMcr .supervisor 0 0x101).scr :=
  (of_nextWith (p := fun t => decide (t.scr ≠ (oneMcr .supervisor 0 0x101).scr)) (by decide)).imp
    fun _ h => ⟨h.1, by simpa using h.2⟩

theorem test_witness_NonSecureRunsNeverChangeScr :
    (oneWfe .supervisor 1).isSecure = false ∧ ∃ t, Host.Core.run Sys2Proof.core 1 (oneWfe .supervisor 1) = .next t :=
  ⟨by decide, (of_nextWith (r := Host.Core.run Sys2Proof.core 1 (oneWfe .supervisor 1)) (p := fun _ => true) (by decide)).imp
    fun _ h => h.1⟩

theorem test_witness_TgeKeepsRunsSecure :
    let s := withControls ({ · with hcrTGE := true }) (oneMcr .supervisor 0 1)
    s.impl.haveEl2 = true ∧ s.ctl.hcrTGE = true ∧ s.mode ≠ .monitor ∧ s.isSecure = true ∧
    ∃ t, Host.Core.run Sys2Proof.core 1 s = .next t :=
  ⟨by decide, by decide, by decide, by decide,
    (of_nextWith (r := Host.Core.run Sys2Proof.core 1 (withControls ({ · with hcrTGE := true }) (oneMcr .supervisor 0 1)))
      (p := fun _ => true) (by decide)).imp fun _ h => h.1⟩

/-- Bits 31 and 6 (nET) of SCR differ; an instruction that is no access, accesses below and at EL3, and a place that is no access.
-/
theorem test_witness_ReservedBitsAndNetHaveNoEffect :
    (0x80000040#32) &&& (rwMask (oneWfe .supervisor 1).impl &&& 0xFFFFFFBF#32) = 0 ∧
    (Instr.smcT32 0).mrcRt = none ∧ (Instr.smcT32 0).mcrRt = none ∧ (oneWfe .supervisor 1).el ≠ .el3 ∧
    (Instr.mcrT32 14).mcrRt ≠ none ∧ (Instr.mrcA32 14 0).mrcRt = some 0 ∧ (oneWfe .supervisor 0).el = .el3 ∧
    (∀ (c : CodeWord) (i : Instr), (oneWfe .supervisor 1).program[(oneWfe .supervisor 1).pc]? = some (.code c) →
      decode c = .ok i → i.mrcRt = none ∧ i.mcrRt = none) := by
  refine ⟨by decide, by decide, by decide, by decide, by decide, by decide, by decide, fun c i hc hi => ?_⟩
  obtain rfl : CodeWord.t16 0xBF20 = c := by simpa [oneWfe, withItem, start, State.reset] using hc
  obtain rfl : Instr.wfeT16 = i := by
    rw [(by decide : decode (.t16 0xBF20) = .ok .wfeT16)] at hi
    simpa using hi
  decide

theorem test_witness_AccessBelowEl3ShowsNothingOfScr :
    (Instr.mrcA32 14 0).mrcRt ≠ none ∧ (Instr.mcrT32 0).mcrRt ≠ none ∧ (start .supervisor 1).el ≠ .el3 ∧
    field .ns 0xB3FF = field .ns (start .supervisor 1).scr := by decide

theorem test_witness_GoverningValue :
    (start .supervisor 0).impl.syncModel = .immediate ∧
    (let s := withInput { StepInput.quiet with scrDraw := 0x1000 }
        (withImpl resetImpl { start .supervisor 0 with scrHist := [0, 0x1000] })
     s.scr ∈ s.scrHist ∧ s.impl.syncModel = .relaxed ∧ 0x1000#32 ∈ s.scrHist ∧
     s.input.scrDraw.getLsbD 12 = (0x1000#32).getLsbD 12) := by decide

theorem test_witness_AdmittedInstructionsGoOn :
    let s := oneMcr .supervisor 0 1
    s.ended = none ∧ s.impl.scrExists = true ∧ s.program[s.pc]? = some (.code (.a32 0xEE010F11)) ∧
    decode (.a32 0xEE010F11) = .ok (.mcrA32 14 0) ∧ (Instr.mcrA32 14 0).admitted = true := by decide

/-- Each of the two fields, 0 in a step and 1 in a form that traps. -/
theorem test_witness_TweTrapsWfeAndTwiTrapsWfi :
    ((oneWfe .supervisor 0x1000).governed .twe = false ∧ ∃ t, step (oneWfe .supervisor 0x1000) = .next t) ∧
    (oneWfe .supervisor 0x2000).governed .twi = false ∧
    (let s := withInput { sleepy with trapTaken := true } (start .supervisor 0x3001)
     Instr.wfeT16.waitOf = some .wfe ∧ (Instr.wfiA32 1).waitOf = some .wfi ∧ s.impl.scrExists = true ∧
     Instr.wfeT16.passes s = true ∧ (Instr.wfiA32 1).passes s = true ∧ s.input.wouldSleep = true ∧ s.lowerTrap .wfe = false ∧
     s.lowerTrap .wfi = false ∧ s.governed .twe = true ∧ s.governed .twi = true ∧ s.mode ≠ .monitor ∧
     s.input.trapTaken = true) := by
  refine ⟨⟨by decide, ?_⟩, by decide, by decide⟩
  exact (of_nextWith (p := fun _ => true) (by decide)).imp fun _ h => h.1

theorem test_witness_NsDeterminesTheSecurityState :
    (start .supervisor 0).impl.scrExists = true ∧ (start .supervisor 0).mode ≠ .monitor ∧
    field .ns (start .supervisor 0).scr = false ∧ field .ns (start .user 1).scr = true ∧ (start .user 1).mode ≠ .monitor ∧
    field .ns 0xFFFFFFFE = false ∧ (start .supervisor 0).hcrTGE = false ∧
    (withControls ({ · with hcrTGE := true }) (start .supervisor 0)).hcrTGE = true := by decide

/-- R2, R98, R99: CPSR.F and CPSR.A are 1, and mask where SCR exists with FIQ and EA 1; where it does not, the bits the field
happens to hold mask nothing. -/
theorem test_absent_scr_masks_nothing :
    let s := { start .supervisor 0xC with cpsrF := true, cpsrA := true }
    s.masked .fiq = true ∧ s.masked .ea = true ∧ (withImpl noScr s).masked .fiq = false ∧
    (withImpl noScr s).masked .ea = false := by decide

/-- A step that answers a next state, the access below EL3, and one that is refused. -/
theorem test_witness_AbsentScrDecidesNothing :
    (withImpl noScr (oneMcr .supervisor 0 1)).impl.scrExists = false ∧
    (∃ t, step (withImpl noScr (oneMcr .supervisor 0 1)) = .next t) ∧
    refusalIn (step (withImpl noScr (oneWfe .supervisor 0))) = some .configurationRefused := by
  refine ⟨by decide, ?_, by decide⟩
  exact (of_nextWith (p := fun _ => true) (by decide)).imp fun _ h => h.1

end Sys2Proof.Tests
end

/-! ### The model's scope: what no step changes, the invariant, and the machine without SCR -/

namespace Sys2Proof.Machine

/-! #### Shared operations -/

theorem waitThenComplete_cases (s : State) : waitThenComplete s = complete s ∨ waitThenComplete s = keepWaiting s := by
  unfold waitThenComplete
  split
  · exact .inl rfl
  · exact .inr rfl

theorem fetched_eq_some_pc_lt {s : State} {item : ProgItem} (h : s.fetched = some item) : s.pc < s.program.length :=
  (List.getElem?_eq_some_iff.1 h).1

theorem mode_ne_hyp_of_el3 {s : State} (hl : s.el = .el3) : s.mode ≠ .hyp := by
  rcases elUnder_eq_el3 _ _ _ hl with hm | ⟨-, -, -, hm⟩
  · simp [hm]
  · exact hm

/-! #### What no step changes (R4, R32 to R34, R49) -/

theorem State.SameFixed.trans {s t u : State} (h : s.SameFixed t) (h' : t.SameFixed u) : s.SameFixed u where
  impl := h'.impl.trans h.impl
  mode := h'.mode.trans h.mode
  cpsrA := h'.cpsrA.trans h.cpsrA
  cpsrF := h'.cpsrF.trans h.cpsrF
  ctl := h'.ctl.trans h.ctl
  program := h'.program.trans h.program

theorem sameFixed_endWith (e : Ending) (s : State) : s.SameFixed (endWith e s) := ⟨rfl, rfl, rfl, rfl, rfl, rfl⟩
theorem sameFixed_complete (s : State) : s.SameFixed (complete s) := ⟨rfl, rfl, rfl, rfl, rfl, rfl⟩
theorem sameFixed_keepWaiting (s : State) : s.SameFixed (keepWaiting s) := ⟨rfl, rfl, rfl, rfl, rfl, rfl⟩
theorem sameFixed_setReg (s : State) (t : BitVec 4) (v : Word) : s.SameFixed (s.setReg t v) :=
  ⟨rfl, rfl, rfl, rfl, rfl, rfl⟩
theorem sameFixed_setScr (v : Word) (s : State) : s.SameFixed (setScr v s) := ⟨rfl, rfl, rfl, rfl, rfl, rfl⟩
theorem sameFixed_takeAsync (k : Async) (s : State) : s.SameFixed (takeAsync k s) := ⟨rfl, rfl, rfl, rfl, rfl, rfl⟩
theorem sameFixed_arrive (s : State) : s.SameFixed (arrive s) := ⟨rfl, rfl, rfl, rfl, rfl, rfl⟩
theorem sameFixed_endStep (s : State) : s.SameFixed (endStep s) := ⟨rfl, rfl, rfl, rfl, rfl, rfl⟩

theorem ExecDoes.sameFixed {i : Instr} {s t : State} (h : ExecDoes i s t) : s.SameFixed t := by
  cases h with
  | ends e => exact sameFixed_endWith e s
  | completes => exact sameFixed_complete s
  | waits => exact sameFixed_keepWaiting s
  | reads rt => exact (sameFixed_setReg s rt _).trans (sameFixed_complete _)
  | writes rt => exact (sameFixed_setScr _ s).trans (sameFixed_complete _)

theorem ActDoes.sameFixed {s t : State} (h : ActDoes s t) : s.SameFixed t := by
  cases h with
  | goesOnWaiting =>
    rcases waitThenComplete_cases s with e | e <;> rw [e]
    · exact sameFixed_complete s
    · exact sameFixed_keepWaiting s
  | takes k => exact sameFixed_takeAsync k s
  | fetchEnds => exact sameFixed_endWith _ s
  | runs c i t _ _ _ he => exact he.sameFixed
  | accesses _ _ e => exact sameFixed_endWith e s

/-- Settles O50, from what each operation of a step leaves unchanged. -/
theorem stepKeepsWhatIsFixed : Obligations.StepKeepsWhatIsFixed := by
  intro s t h
  obtain ⟨-, u, hu, rfl⟩ := step_does h
  exact (sameFixed_arrive s).trans (hu.sameFixed.trans (sameFixed_endStep u))

/-! #### The invariant (R4, R28, R36, R37, R48, R72, R103), operation by operation -/

/-- A flush leaves the current value of SIF in `sif_tlb` (R42). -/
theorem State.Inv.arrive {s : State} (hi : s.Inv) : (arrive s).Inv :=
  { hi with
    sifCurrent := by
      rw [arrive_sifTlb, arrive_scr]
      split
      · simp [SifSet.has_only]
      · exact hi.sifCurrent }

theorem State.Inv.endStep {s : State} (hi : s.Inv) : (endStep s).Inv := { hi with }

theorem State.Inv.setReg {s : State} (hi : s.Inv) (t : BitVec 4) (v : Word) : (s.setReg t v).Inv := { hi with }

/-- Only an instruction that does not wait can end the run (R72). -/
theorem State.Inv.endWith {s : State} (hi : s.Inv) (hw : s.waiting = false) (e : Ending) : (endWith e s).Inv :=
  { hi with waitingInProgram := fun h => by simp [hw] at h }

theorem State.Inv.takeAsync {s : State} (hi : s.Inv) (hw : s.waiting = false) (k : Async) : (takeAsync k s).Inv :=
  { hi.endWith hw _ with }

theorem State.Inv.complete {s : State} (hi : s.Inv) (hp : s.pc < s.program.length) : (complete s).Inv :=
  { hi with
    pcInProgram := hp
    waitingInProgram := fun h => by simp at h }

theorem State.Inv.keepWaiting {s : State} (hi : s.Inv) (he : s.ended = none) (hp : s.pc < s.program.length) :
    (keepWaiting s).Inv :=
  { hi with waitingInProgram := fun _ => ⟨he, hp⟩ }

/-- A write happens at EL3, so not in Hyp mode (R103), and leaves hardwired bits 0 (R28). -/
theorem State.Inv.setScr_writeValue {s : State} (hi : s.Inv) (hl : s.el = .el3) (v : Word) :
    (setScr (s.writeValue v) s).Inv :=
  { hi with
    hypMode := fun hm => absurd hm (mode_ne_hyp_of_el3 (s := s) hl)
    sifCurrent := by simp [SifSet.has_add]
    histCurrent := (mem_histAdd _ _ _).2 (.inl rfl)
    histAscending := histAdd_ascending _ hi.histAscending
    res0Hardwired := fun h u hu => by
      rcases (mem_histAdd _ _ _).1 hu with rfl | hu
      · exact writeValue_res0 s v h
      · exact hi.res0Hardwired h u hu }

theorem ExecDoes.keeps_inv {i : Instr} {s t : State} (h : ExecDoes i s t) (hi : s.Inv) (he : s.ended = none)
    (hw : s.waiting = false) (hp : s.pc < s.program.length) : t.Inv := by
  cases h with
  | ends e => exact hi.endWith hw e
  | completes => exact hi.complete hp
  | waits => exact hi.keepWaiting he hp
  | reads rt => exact (hi.setReg rt _).complete hp
  | writes rt _ hl => exact (hi.setScr_writeValue hl _).complete hp

theorem ActDoes.keeps_inv {s t : State} (h : ActDoes s t) (hi : s.Inv) (he : s.ended = none) : t.Inv := by
  cases h with
  | goesOnWaiting hw =>
    have hp : s.pc < s.program.length := (hi.waitingInProgram hw).2
    rcases waitThenComplete_cases s with e | e <;> rw [e]
    · exact hi.complete hp
    · exact hi.keepWaiting he hp
  | takes k hw => exact hi.takeAsync hw k
  | fetchEnds _ hw => exact hi.endWith hw _
  | runs c i t hw hf _ hd => exact hd.keeps_inv hi he hw (fetched_eq_some_pc_lt hf)
  | accesses _ _ e hw => exact hi.endWith hw e

/-- Settles O13: the environment, then the PE, then the end of the step each keep the invariant. -/
theorem stepKeepsTheInvariant : Obligations.StepKeepsTheInvariant := by
  intro s t hi h
  obtain ⟨he, u, hu, rfl⟩ := step_does h
  exact (hu.keeps_inv hi.arrive he).endStep

/-! #### The machine without SCR (R2, D1) -/

theorem inConfiguration_of_absent_scr {s : State} (hx : s.impl.scrExists = false) (r : Result) :
    inConfiguration s r = .refused .configurationRefused := by
  simp [inConfiguration, hx]

theorem fetchPermitted_of_absent_scr {s : State} (hx : s.impl.scrExists = false) : s.fetchPermitted = true := by
  simp [State.fetchPermitted, hx]

/-- Where SCR does not exist, the level is a function of the mode alone (assumption log 18). -/
theorem elUnder_of_absent_scr {m : Impl} (hx : m.scrExists = false) (mode : Mode) (v w : Word) :
    elUnder m mode v = elUnder m mode w := by
  cases mode <;> simp [elUnder, hx]

/-- Where SCR does not exist, every instruction but an access to it is refused. -/
theorem exec_of_absent_scr {i : Instr} {s : State} (hx : s.impl.scrExists = false) (hr : i.mrcRt = none)
    (hw : i.mcrRt = none) : exec i s = .refused .configurationRefused := by
  cases i with
  | mrcA32 cond rt => simp [Instr.mrcRt] at hr
  | mcrA32 cond rt => simp [Instr.mcrRt] at hw
  | mrcT32 rt => simp [Instr.mrcRt] at hr
  | mcrT32 rt => simp [Instr.mcrRt] at hw
  | _ => exact inConfiguration_of_absent_scr hx _

theorem execErrAccess_of_absent_scr {s : State} (hx : s.impl.scrExists = false) (reg : ErrReg) (dir : ErrDir) :
    execErrAccess reg dir s = .refused .configurationRefused :=
  inConfiguration_of_absent_scr hx _

/-- Outside Monitor mode no level is EL3 where SCR does not exist, so the access check never allows (R60). -/
theorem accessCheck_of_absent_scr {s : State} (hx : s.impl.scrExists = false) (hm : s.mode ≠ .monitor) :
    ∃ e, s.accessCheck = some e := by
  have hl : s.el ≠ .el3 := fun hl => by
    rcases elUnder_eq_el3 _ _ _ hl with h | ⟨h, -⟩
    · exact hm h
    · simp [hx] at h
  exact Option.ne_none_iff_exists'.1 fun h => hl ((accessCheck_eq_none s).1 h)

/-- An admitted MRC of SCR has the meaning of R61, in either instruction set. -/
theorem exec_of_mrcRt {i : Instr} {rt : BitVec 4} (ha : i.admitted = true) (hr : i.mrcRt = some rt) (s : State) :
    exec i s = readScr rt s := by
  cases i with
  | mrcA32 cond rt =>
    obtain ⟨hc, ht⟩ := Bool.and_eq_true_iff.1 ha
    obtain rfl := Option.some.inj hr
    simp [exec, execMrcA32, admittedA32, hc, ht]
  | mrcT32 rt =>
    obtain rfl := Option.some.inj hr
    exact if_pos ha
  | _ => simp [Instr.mrcRt] at hr

/-- An admitted MCR of SCR has the meaning of R63, in either instruction set. -/
theorem exec_of_mcrRt {i : Instr} {rt : BitVec 4} (ha : i.admitted = true) (hw : i.mcrRt = some rt) (s : State) :
    exec i s = writeScr rt s := by
  cases i with
  | mcrA32 cond rt =>
    obtain ⟨hc, ht⟩ := Bool.and_eq_true_iff.1 ha
    obtain rfl := Option.some.inj hw
    simp [exec, execMcrA32, admittedA32, hc, ht]
  | mcrT32 rt =>
    obtain rfl := Option.some.inj hw
    exact if_pos ha
  | _ => simp [Instr.mcrRt] at hw

/-- An admitted access that the check does not allow ends the run with the outcome of the check (R60). -/
theorem exec_of_accessCheck_some {i : Instr} {s : State} {e : Ending} (ha : i.admitted = true)
    (hrw : i.mrcRt ≠ none ∨ i.mcrRt ≠ none) (he : s.accessCheck = some e) : exec i s = .next (endWith e s) := by
  rcases hrw with h | h
  · obtain ⟨rt, hr⟩ := Option.ne_none_iff_exists'.1 h
    exact (exec_of_mrcRt ha hr s).trans (scrAccess_ended he _)
  · obtain ⟨rt, hw⟩ := Option.ne_none_iff_exists'.1 h
    exact (exec_of_mcrRt ha hw s).trans (scrAccess_ended he _)

/-- Settles O19: the check does not allow an access, and the configuration refuses the rest. -/
theorem noScrNoAccess : Obligations.NoScrNoAccess := by
  intro s i hx hm ha
  refine ⟨fun hrw => ?_, fun hr hw => exec_of_absent_scr hx hr hw⟩
  obtain ⟨e, he⟩ := accessCheck_of_absent_scr hx hm
  exact ⟨e, he, exec_of_accessCheck_some ha hrw he⟩

/-! #### Non-interference of the absent SCR (R2): every part of a step commutes with replacing its state -/

theorem onNext_admittedA32 (f : State → State) (cond rt : BitVec 4) (r : Result) :
    onNext f (admittedA32 cond rt r) = admittedA32 cond rt (onNext f r) := by
  unfold admittedA32
  split
  · split <;> rfl
  · rfl

theorem onNext_admittedT32 (f : State → State) (rt : BitVec 4) (r : Result) :
    onNext f (admittedT32 rt r) = admittedT32 rt (onNext f r) := by
  unfold admittedT32
  split <;> rfl

/-- Another value of `scr` and of the two sets that keep its old values. -/
def State.withScrState (v : Word) (hist : List Word) (sif : SifSet) (s : State) : State :=
  { s with scr := v, scrHist := hist, sifTlb := sif }

section
variable {s : State} (v : Word) (hist : List Word) (sif : SifSet)

@[simp] theorem withScrState_impl : (s.withScrState v hist sif).impl = s.impl := rfl
@[simp] theorem withScrState_waiting : (s.withScrState v hist sif).waiting = s.waiting := rfl
@[simp] theorem withScrState_ended : (s.withScrState v hist sif).ended = s.ended := rfl
@[simp] theorem withScrState_input : (s.withScrState v hist sif).input = s.input := rfl
@[simp] theorem withScrState_fetched : (s.withScrState v hist sif).fetched = s.fetched := rfl
@[simp] theorem withScrState_isPending (k : Async) : (s.withScrState v hist sif).isPending k = s.isPending k := by
  cases k <;> rfl

/-- The scheduled flush touches only `sif_tlb`, which is replaced. -/
theorem withScrState_arrive_withScrState :
    (arrive (s.withScrState v hist sif)).withScrState v hist sif = (arrive s).withScrState v hist sif := rfl

theorem waitThenComplete_withScrState :
    waitThenComplete (s.withScrState v hist sif) = (waitThenComplete s).withScrState v hist sif := by
  unfold waitThenComplete
  rw [withScrState_input]
  split <;> rfl

variable (hx : s.impl.scrExists = false)
include hx

theorem accessCheck_withScrState : (s.withScrState v hist sif).accessCheck = s.accessCheck := by
  have hl : (s.withScrState v hist sif).el = s.el := elUnder_of_absent_scr hx s.mode v s.scr
  have h2 : (s.withScrState v hist sif).el2Enabled = s.el2Enabled := by
    simp [State.el2Enabled, hx]
  change scrAccessCheck _ = scrAccessCheck _
  unfold State.accessInputs
  rw [hl, h2]
  rfl

theorem scrAccess_withScrState (a b : State) :
    scrAccess (s.withScrState v hist sif) a = onNext (State.withScrState v hist sif) (scrAccess s b) := by
  have ha := accessCheck_withScrState v hist sif hx
  cases hc : s.accessCheck with
  | some e =>
    rw [scrAccess_ended (ha.trans hc), scrAccess_ended hc]
    rfl
  | none => simp [scrAccess, ha, hc, inConfiguration_of_absent_scr, hx]

theorem exec_withScrState (i : Instr) :
    exec i (s.withScrState v hist sif) = onNext (State.withScrState v hist sif) (exec i s) := by
  have access := scrAccess_withScrState v hist sif hx
  cases i with
  | mrcA32 cond rt => exact (congrArg _ (access _ _)).trans (onNext_admittedA32 _ _ _ _).symm
  | mcrA32 cond rt => exact (congrArg _ (access _ _)).trans (onNext_admittedA32 _ _ _ _).symm
  | mrcT32 rt => exact (congrArg _ (access _ _)).trans (onNext_admittedT32 _ _ _).symm
  | mcrT32 rt => exact (congrArg _ (access _ _)).trans (onNext_admittedT32 _ _ _).symm
  | _ =>
    rw [exec_of_absent_scr hx rfl rfl, exec_of_absent_scr (s := s.withScrState v hist sif) hx rfl rfl]
    rfl

theorem runItem_withScrState (item : ProgItem) :
    runItem item (s.withScrState v hist sif) = onNext (State.withScrState v hist sif) (runItem item s) := by
  cases item with
  | code c =>
    cases hd : decode c with
    | ok i => simpa [runItem, hd] using exec_withScrState v hist sif hx i
    | error r => simp [runItem, hd]
  | errAccess reg dir =>
    simp [runItem, execErrAccess_of_absent_scr, hx]

theorem fetchAndRun_withScrState :
    fetchAndRun (s.withScrState v hist sif) = onNext (State.withScrState v hist sif) (fetchAndRun s) := by
  cases hf : s.fetched with
  | none => simp [fetchAndRun, hf]
  | some item =>
    rw [fetchAndRun_of_permitted (s := s.withScrState v hist sif) hf (fetchPermitted_of_absent_scr hx),
      fetchAndRun_of_permitted hf (fetchPermitted_of_absent_scr hx)]
    exact runItem_withScrState v hist sif hx item

theorem asyncTaken_withScrState : (s.withScrState v hist sif).asyncTaken = s.asyncTaken := by
  have hm (k : Async) : (s.withScrState v hist sif).masked k = s.masked k := by
    rw [masked_of_absent_scr hx, masked_of_absent_scr (s := s.withScrState v hist sif) hx, withScrState_input]
  simp [State.asyncTaken, hm]

theorem act_withScrState : act (s.withScrState v hist sif) = onNext (State.withScrState v hist sif) (act s) := by
  cases hw : s.waiting with
  | true =>
    rw [act_of_waiting hw, act_of_waiting (s := s.withScrState v hist sif) hw, waitThenComplete_withScrState]
    rfl
  | false =>
    have ha := asyncTaken_withScrState v hist sif hx
    cases hk : s.asyncTaken with
    | some k => simp [act, hw, ha, hk, inConfiguration_of_absent_scr, hx]
    | none =>
      rw [act_of_no_exception hw hk, act_of_no_exception (s := s.withScrState v hist sif) hw (ha.trans hk)]
      exact fetchAndRun_withScrState v hist sif hx

end

/-- The end of a step leaves SCR's state alone, so replacing it may as well come before the PE acts. -/
theorem onNext_withScrState_endStep (v : Word) (hist : List Word) (sif : SifSet) {s : State}
    (hx : s.impl.scrExists = false) :
    onNext (State.withScrState v hist sif) (onNext endStep (act s)) =
      onNext endStep (act (s.withScrState v hist sif)) := by
  rw [act_withScrState v hist sif hx]
  cases act s <;> rfl

/-- Settles O60: a step commutes with replacing SCR's state, up to what the scheduled flush leaves in it. -/
theorem absentScrDecidesNothing : Obligations.AbsentScrDecidesNothing := by
  intro s v hist sif hx
  change onNext (State.withScrState v hist sif) (step (s.withScrState v hist sif)) =
    onNext (State.withScrState v hist sif) (step s)
  cases he : s.ended with
  | some e => simp [step, he]
  | none =>
    rw [step_of_running he, step_of_running (s := s.withScrState v hist sif) he,
      onNext_withScrState_endStep v hist sif (s := arrive s) hx,
      onNext_withScrState_endStep v hist sif (s := arrive (s.withScrState v hist sif)) hx,
      withScrState_arrive_withScrState]

end Sys2Proof.Machine

/-! ### The state: reset, the Security state, one step, and what the bits of SCR decide -/

namespace Sys2Proof.Machine

/-! #### The fields an implementation has (R11), and the writable mask -/

/-- The implementation has the field: otherwise its bit is a reserved one (R11). -/
def Field.implemented (m : Impl) : Field → Bool
  | .terr => m.haveRas
  | .hce => m.haveEl2
  | .net => m.haveNet
  | .twe | .twi | .sif | .scd | .aw | .fw | .ea | .fiq | .irq | .ns => true

theorem field_and (f : Field) (v w : Word) : field f (v &&& w) = (field f v && field f w) := BitVec.getLsbD_and ..

theorem field_xor (f : Field) (v w : Word) : field f (v ^^^ w) = (field f v ^^ field f w) := BitVec.getLsbD_xor ..

/-- `RW_MASK` holds the bits of the fields the implementation has. -/
theorem field_rwMask (f : Field) (m : Impl) : field f (rwMask m) = f.implemented m := by
  have hb : f.bit < 32 := by cases f <;> decide
  unfold field
  rw [rwMask_getLsbD m hb]
  cases f <;> simp [Field.bit, Field.implemented]

/-- Settles O27, on each value of the three options. -/
theorem writableMaskOfEachImplementation : Obligations.WritableMaskOfEachImplementation := by
  intro m
  unfold rwMask
  cases m.haveRas <;> cases m.haveEl2 <;> cases m.haveNet <;> rfl

/-! #### Security state and level (R30, R103) -/

/-- Of SCR, the Security state depends on NS alone. -/
theorem secureUnder_congr {v w : Word} (h : field .ns v = field .ns w) (mode : Mode) :
    secureUnder mode v = secureUnder mode w := by
  simp [secureUnder, h]

/-- Of SCR, the level depends on NS alone. -/
theorem elUnder_congr {v w : Word} (h : field .ns v = field .ns w) (m : Impl) (mode : Mode) :
    elUnder m mode v = elUnder m mode w := by
  simp [elUnder, secureUnder_congr h]

theorem isSecure_iff (s : State) : s.isSecure = true ↔ s.mode = .monitor ∨ field .ns s.scr = false := by
  simp [State.isSecure, secureUnder]

/-- The PL1 modes that both Security states have are at EL3 where SCR exists and NS is 0, and at EL1 elsewhere. -/
theorem el_of_pl1 {s : State} (hx : s.impl.scrExists = true) (hu : s.mode ≠ .user) (hh : s.mode ≠ .hyp)
    (hm : s.mode ≠ .monitor) : s.el = if field .ns s.scr then .el1 else .el3 := by
  unfold State.el
  cases hmode : s.mode with
  | user => exact absurd hmode hu
  | hyp => exact absurd hmode hh
  | monitor => exact absurd hmode hm
  | _ => cases hn : field .ns s.scr <;> simp [elUnder, secureUnder, hx, hn]

/-- Settles O20, mode by mode. -/
theorem securityStateAndLevel : Obligations.SecurityStateAndLevel := by
  intro s hx
  refine ⟨isSecure_iff s, ?_, ?_, ?_, el_of_pl1 hx⟩ <;>
    · intro hm
      simp [State.el, elUnder, hm]

/-! #### Reset (R29, R120, R121) -/

section
variable (res0 : Word) {s : State}

@[simp] theorem resetFrom_impl : (resetFrom res0 s).impl = s.impl := rfl
@[simp] theorem resetFrom_mode : (resetFrom res0 s).mode = s.mode := rfl
@[simp] theorem resetFrom_sifTlb : (resetFrom res0 s).sifTlb = .only false := rfl
@[simp] theorem resetFrom_scrHist : (resetFrom res0 s).scrHist = [(resetFrom res0 s).scr] := rfl
@[simp] theorem resetFrom_pc : (resetFrom res0 s).pc = 0 := rfl
@[simp] theorem resetFrom_waiting : (resetFrom res0 s).waiting = false := rfl

theorem resetFrom_scr_of_hardwired (h : s.impl.res0Mode = .hardwired) : (resetFrom res0 s).scr = 0 := by
  simp [resetFrom, h]

/-- A reset leaves only reserved bits open. -/
theorem resetFrom_scr_and_rwMask : (resetFrom res0 s).scr &&& rwMask s.impl = 0 := by
  cases h : s.impl.res0Mode with
  | hardwired => simp [resetFrom_scr_of_hardwired res0 h]
  | stored => simp [resetFrom, h, res0Mask, BitVec.and_assoc]

theorem field_resetFrom {f : Field} (hf : f.implemented s.impl = true) :
    field f (resetFrom res0 s).scr = false := by
  have h : field f ((resetFrom res0 s).scr &&& rwMask s.impl) = false := by
    simp [resetFrom_scr_and_rwMask, field]
  simpa [field_and, field_rwMask, hf] using h

theorem isSecure_resetFrom : (resetFrom res0 s).isSecure = true :=
  (isSecure_iff _).2 (.inr (field_resetFrom res0 rfl))

theorem el_resetFrom (hx : s.impl.scrExists = true) (hu : s.mode ≠ .user) (hh : s.mode ≠ .hyp) :
    (resetFrom res0 s).el = .el3 := by
  by_cases hm : s.mode = .monitor
  · simp [State.el, elUnder, hm]
  · rw [el_of_pl1 (s := resetFrom res0 s) hx hu hh hm, field_resetFrom res0 rfl]
    rfl

end

theorem reset_eq_resetFrom : State.reset = resetFrom 0 State.reset := rfl

/-- Settles O15: SCR is the one value `scr_hist` holds, and its SIF, 0, the one value of `sif_tlb`. -/
theorem everyResetMeetsTheInvariant : Obligations.EveryResetMeetsTheInvariant := by
  intro s res0 hras hmon hhyp
  exact {
    rasOptions := hras
    monitorMode := hmon
    hypMode := fun h => absurd h hhyp
    sifCurrent := by rw [field_resetFrom res0 rfl]; rfl
    histCurrent := by simp
    histAscending := by simp
    res0Hardwired := fun h => by simp [resetFrom_scr_of_hardwired res0 (s := s) h]
    pcInProgram := Nat.zero_le _
    waitingInProgram := fun h => by simp at h }

/-- Settles O14: the reset state is a reset of its own implementation, into Supervisor mode. -/
theorem resetMeetsTheInvariant : Obligations.ResetMeetsTheInvariant := by
  unfold Obligations.ResetMeetsTheInvariant
  rw [reset_eq_resetFrom]
  exact everyResetMeetsTheInvariant State.reset 0 (fun _ => rfl) (fun _ => rfl) (by decide)

/-- Settles O16, for every reset and so for the reset state. -/
theorem resetLeavesTheNamedFieldsZero : Obligations.ResetLeavesTheNamedFieldsZero := by
  refine ⟨fun s res0 => ⟨resetFrom_scr_and_rwMask res0, resetFrom_scr_of_hardwired res0, rfl, rfl, rfl, rfl, rfl, rfl,
    fun hx hu hh => ⟨isSecure_resetFrom res0, el_resetFrom res0 hx hu hh⟩⟩, reset_eq_resetFrom, rfl, rfl, ?_, ?_⟩
  · exact isSecure_resetFrom 0 (s := State.reset)
  · exact el_resetFrom 0 (s := State.reset) rfl (by decide) (by decide)

/-! #### NS (R27, R62, R64) -/

/-- The NS bit a write leaves: the one written, but under the guard (R62, R64). -/
theorem ns_writeValue (s : State) (v : Word) : field .ns (s.writeValue v) = (field .ns v && !s.nsGuard v) := by
  have hm : (rwMask s.impl).getLsbD 0 = true := field_rwMask .ns s.impl
  change (s.writeValue v).getLsbD 0 = (v.getLsbD 0 && !s.nsGuard v)
  rw [writeValue_getLsbD s v (by decide), hm]
  simp

/-- Settles O59: the guard needs HCR.TGE set, and holds for a 1 written over a 0 outside Monitor mode. -/
theorem nsDeterminesTheSecurityState : Obligations.NsDeterminesTheSecurityState := by
  refine ⟨fun v => rfl, fun s _ hm => ⟨fun hn => (isSecure_iff s).2 (.inr hn), fun hn => ?_⟩,
    fun s res0 => field_resetFrom res0 rfl, fun s v => ⟨?_, fun ht hm hn => ?_⟩⟩
  · simp [State.isSecure, secureUnder, hm, hn]
  · rintro (hv | ht)
    · simp [ns_writeValue, hv]
    · simp [ns_writeValue, State.nsGuard, ht]
  · simp [ns_writeValue, State.nsGuard, ht, hm, hn]

/-! #### The copy of SIF in the TLB (R36, R42) -/

/-- The effective SIF is the draw where the TLB may hold it (R42). -/
theorem sifEff_of_has {s : State} (h : s.sifTlb.has s.input.sifDraw = true) : s.sifEff = s.input.sifDraw := by
  simp [State.sifEff, h]

theorem sifEff_of_not_has {s : State} (h : s.sifTlb.has s.input.sifDraw = false) : s.sifEff = !s.input.sifDraw := by
  simp [State.sifEff, h]

/-- A set that is not empty and does not hold a value holds the other one. -/
theorem SifSet.has_not {t : SifSet} {b : Bool} (hne : t.has true = true ∨ t.has false = true) (hb : t.has b = false) :
    t.has (!b) = true := by
  cases b <;> simpa [hb] using hne

/-- Settles O11: where the set does not hold the draw, it holds the other value. -/
theorem effectiveSifIsHeld : Obligations.EffectiveSifIsHeld := by
  intro s hne
  refine ⟨?_, fun b hb hd => ?_⟩
  · cases hd : s.sifTlb.has s.input.sifDraw with
    | true => rw [sifEff_of_has hd, hd]
    | false =>
      rw [sifEff_of_not_has hd]
      exact SifSet.has_not hne hd
  · subst hd
    exact sifEff_of_has hb

theorem ExecDoes.sifTlb_has {i : Instr} {s t : State} (h : ExecDoes i s t) {b : Bool} (hb : s.sifTlb.has b = true) :
    t.sifTlb.has b = true := by
  cases h with
  | ends | completes | waits | reads => exact hb
  | writes => simp [SifSet.has_add, hb]

/-- The PE forgets no value of SIF: only an MCR changes the set, and it adds to it (R66). -/
theorem ActDoes.sifTlb_has {s t : State} (h : ActDoes s t) {b : Bool} (hb : s.sifTlb.has b = true) :
    t.sifTlb.has b = true := by
  cases h with
  | goesOnWaiting => rcases waitThenComplete_cases s with e | e <;> simpa [e] using hb
  | takes | fetchEnds | accesses => exact hb
  | runs _ _ _ _ _ _ he => exact he.sifTlb_has hb

/-- Settles O12: no flush comes before the PE acts, and the PE forgets nothing. -/
theorem sifTlbNeverShrinks : Obligations.SifTlbNeverShrinks := by
  intro s t b h htick hb
  obtain ⟨-, u, hu, rfl⟩ := step_does h
  exact hu.sifTlb_has (by simpa [htick] using hb)

/-! #### One step (R37, R38, R42, R101) -/

/-- Settles O6: the PE, which does not wait and takes no exception, fetches the place and runs it. -/
theorem stepRunsTheDecodedInstruction : Obligations.StepRunsTheDecodedInstruction := by
  intro s c i he hw ha hp hf hd
  calc step s = onNext endStep (act (arrive s)) := step_of_running he
    _ = onNext endStep (fetchAndRun (arrive s)) := by rw [act_of_no_exception (s := arrive s) hw ha]
    _ = onNext endStep (runItem (.code c) (arrive s)) := by rw [fetchAndRun_of_permitted (s := arrive s) hf hp]
    _ = onNext endStep (exec i (arrive s)) := by rw [runItem_of_decoded hd]

/-- Settles O7: a run that has ended takes no step, and past the last word nothing is fetched. -/
theorem stepStopsWhereTheRunIsOver : Obligations.StepStopsWhereTheRunIsOver := by
  refine ⟨fun s e he => by simp [step, he], fun s he hw ha hp => ?_⟩
  have hf : (arrive s).fetched = none := List.getElem?_eq_none hp
  rw [step_of_running he, act_of_no_exception (s := arrive s) hw ha]
  simp [fetchAndRun, hf]

theorem asyncTaken_eq_some {s : State} {k : Async} (ht : s.input.take = some k) (hp : s.isPending k = true)
    (hm : s.masked k = false) : s.asyncTaken = some k := by
  simp [State.asyncTaken, ht, hp, hm]

@[simp] theorem arrive_route (s : State) (k : Async) : (arrive s).route k = s.route k := by
  cases k <;> rfl

/-- Settles O8: the PE takes the exception, and its route is the one before the environment's part. -/
theorem stepTakesAnEnabledException : Obligations.StepTakesAnEnabledException := by
  intro s k he hw hx ht hp hm
  have hk : (arrive s).asyncTaken = some k := asyncTaken_eq_some ht hp hm
  rw [step_of_running he, act_of_taken (s := arrive s) hw hk hx, onNext_next]
  simp only [← arrive_route s k]
  rfl

/-! #### TWE and TWI (R15, R16, R70, R71) -/

/-- Every form of WFE and of WFI has the meaning of R70 and R71, under its own condition check. -/
theorem exec_of_waitOf {i : Instr} {w : WaitInstr} (hi : i.waitOf = some w) (s : State) :
    exec i s = waitFor w (i.passes s) s := by
  cases i with
  | wfeA32 | wfiA32 | wfeT16 | wfiT16 | wfeW | wfiW =>
    obtain rfl := Option.some.inj hi
    rfl
  | _ => simp [Instr.waitOf] at hi

theorem waitState_of_trap {w : WaitInstr} {s : State} (hs : s.input.wouldSleep = true) (hl : s.lowerTrap w = false)
    (ht : s.monitorTrapApplies w.field = true) (hd : s.input.trapTaken = true) :
    waitState w true s = endWith (.monitorTrap (.wait w)) s := by
  simp [waitState, hs, hl, ht, hd]

theorem ExecDoes.ended_ne_waitTrap {i : Instr} {s t : State} {w : WaitInstr} (h : ExecDoes i s t) (he : s.ended = none)
    (hg : s.governed w.field = false) : t.ended ≠ some (.monitorTrap (.wait w)) := by
  cases h with
  | ends e ht =>
    intro hc
    obtain ⟨w', hw', -, hm⟩ := ht _ (Option.some.inj hc)
    obtain rfl : w = w' := by simpa using hw'
    simp [State.monitorTrapApplies, hg] at hm
  | completes | waits | reads | writes => simp [he]

/-- Where the field is 0, nothing the PE can do is the Monitor trap on a WFE or WFI. -/
theorem ActDoes.ended_ne_waitTrap {s t : State} {w : WaitInstr} (h : ActDoes s t) (he : s.ended = none)
    (hg : s.governed w.field = false) : t.ended ≠ some (.monitorTrap (.wait w)) := by
  cases h with
  | goesOnWaiting => rcases waitThenComplete_cases s with e | e <;> simp [e, he]
  | takes k => cases k <;> simp [takenEnding]
  | fetchEnds => simp
  | runs _ _ _ _ _ _ hd => exact hd.ended_ne_waitTrap he hg
  | accesses _ _ e _ _ _ ht =>
    intro hc
    simpa using (ht _ (Option.some.inj hc)).1

/-- Settles O58: with the field 0 nothing a step can do is the trap, and with it 1 each form takes the trap that is drawn. -/
theorem tweTrapsWfeAndTwiTrapsWfi : Obligations.TweTrapsWfeAndTwiTrapsWfi := by
  refine ⟨fun v => ⟨rfl, rfl⟩, fun s res0 => ⟨field_resetFrom res0 rfl, field_resetFrom res0 rfl⟩,
    fun s t w hg h => ?_, fun i w s hi hx hp hs hl hg hm hd => ?_⟩
  · obtain ⟨he, u, hu, rfl⟩ := step_does h
    exact hu.ended_ne_waitTrap he hg
  · have ht : s.monitorTrapApplies w.field = true := Bool.and_eq_true_iff.2 ⟨hg, bne_iff_ne.2 hm⟩
    refine ⟨endWith (.monitorTrap (.wait w)) s, ?_, rfl⟩
    rw [exec_of_waitOf hi, hp, waitFor, inConfiguration_of_exists hx, waitState_of_trap hs hl ht hd]

/-! #### Non-interference of reserved bits and nET (R28, R80): every part of a step commutes with replacing SCR -/

/-- Two values of SCR agree on every field a rule reads: those the implementation has, but nET (R80). -/
def AgreeOnFields (m : Impl) (v w : Word) : Prop :=
  ∀ f : Field, f ≠ .net → f.implemented m = true → field f v = field f w

/-- The mask of the statement leaves the bit of nET out. -/
theorem field_clearNet (f : Field) : field f 0xFFFFFFBF#32 = decide (f ≠ .net) := by
  cases f <;> rfl

/-- Values that differ in reserved bits and nET alone agree on every field a rule reads. -/
theorem agreeOnFields_xor {m : Impl} {d : Word} (hd : d &&& (rwMask m &&& 0xFFFFFFBF#32) = 0) (v : Word) :
    AgreeOnFields m (v ^^^ d) v := by
  intro f hn hi
  have h : field f (d &&& (rwMask m &&& 0xFFFFFFBF#32)) = false := by simp [hd, field]
  have hf : field f d = false := by simpa [field_and, field_rwMask, field_clearNet, hi, hn] using h
  simp [field_xor, hf]

/-- A drawn field depends on that field of the current value alone. -/
theorem field_drawnScr_congr {f : Field} {v w : Word} (h : field f v = field f w) (draw : Word) (hist : List Word) :
    field f (drawnScr draw v hist) = field f (drawnScr draw w hist) := by
  unfold field at h ⊢
  simp [drawnScr, everSet_getLsbD, alwaysSet_getLsbD, h]

/-- Another value of SCR, and nothing else. -/
def State.withScr (v : Word) (s : State) : State := { s with scr := v }

/-- Another value of SCR, and that value read into a register. -/
def State.withScrRead (v : Word) (rt : BitVec 4) (s : State) : State :=
  { s with scr := v, x := s.x.set rt.toNat v rt.isLt }

theorem withScrRead_complete_setReg (v u : Word) (rt : BitVec 4) (s : State) :
    (complete (s.setReg rt u)).withScrRead v rt = complete ((s.withScr v).setReg rt v) := by
  simp [State.withScrRead, State.withScr, complete, State.setReg]

theorem onNext_inConfiguration (f : State → State) (s : State) (r : Result) :
    onNext f (inConfiguration s r) = inConfiguration s (onNext f r) := by
  unfold inConfiguration
  split <;> rfl

theorem scrAccess_at_el3 {s : State} (hl : s.el = .el3) (a : State) : scrAccess s a = inConfiguration s (.next a) := by
  simp [scrAccess, (accessCheck_eq_none s).2 hl]

section
variable {s : State} (v : Word)

@[simp] theorem withScr_scr : (s.withScr v).scr = v := rfl
@[simp] theorem withScr_impl : (s.withScr v).impl = s.impl := rfl
@[simp] theorem withScr_mode : (s.withScr v).mode = s.mode := rfl
@[simp] theorem withScr_waiting : (s.withScr v).waiting = s.waiting := rfl
@[simp] theorem withScr_ended : (s.withScr v).ended = s.ended := rfl
@[simp] theorem withScr_input : (s.withScr v).input = s.input := rfl
@[simp] theorem withScr_fetched : (s.withScr v).fetched = s.fetched := rfl
@[simp] theorem withScr_lowerTrap (i : WaitInstr) : (s.withScr v).lowerTrap i = s.lowerTrap i := by cases i <;> rfl
@[simp] theorem withScr_isPending (k : Async) : (s.withScr v).isPending k = s.isPending k := by cases k <;> rfl

theorem endWith_withScr (e : Ending) : endWith e (s.withScr v) = (endWith e s).withScr v := rfl

theorem waitThenComplete_withScr : waitThenComplete (s.withScr v) = (waitThenComplete s).withScr v := by
  unfold waitThenComplete
  rw [withScr_input]
  split <;> rfl

theorem inConfiguration_withScr (r : Result) :
    inConfiguration (s.withScr v) (onNext (State.withScr v) r) = onNext (State.withScr v) (inConfiguration s r) :=
  (onNext_inConfiguration _ s r).symm

variable {v} (h : AgreeOnFields s.impl v s.scr)
include h

/-! ##### What the rules read of SCR -/

theorem governed_withScr {f : Field} (hn : f ≠ .net := by decide) (hi : f.implemented s.impl = true := by rfl) :
    (s.withScr v).governed f = s.governed f := by
  have hf : field f v = field f s.scr := h f hn hi
  unfold State.governed State.governing
  rw [withScr_impl]
  cases s.impl.syncModel with
  | immediate => exact hf
  | relaxed => exact field_drawnScr_congr hf _ _

theorem governedSecure_withScr : (s.withScr v).governedSecure = s.governedSecure :=
  secureUnder_congr (governed_withScr h (f := .ns)) s.mode

theorem governedEl_withScr : (s.withScr v).governedEl = s.governedEl :=
  elUnder_congr (governed_withScr h (f := .ns)) s.impl s.mode

theorem el_withScr : (s.withScr v).el = s.el :=
  elUnder_congr (h .ns (by decide) rfl) s.impl s.mode

theorem accessCheck_withScr : (s.withScr v).accessCheck = s.accessCheck := by
  have hl := el_withScr h
  have h2 : (s.withScr v).el2Enabled = s.el2Enabled := by
    simp [State.el2Enabled, h .ns (by decide) rfl]
  change scrAccessCheck _ = scrAccessCheck _
  unfold State.accessInputs
  rw [hl, h2]
  rfl

theorem nsGuard_withScr (u : Word) : (s.withScr v).nsGuard u = s.nsGuard u := by
  unfold State.nsGuard
  rw [withScr_scr, h .ns (by decide) rfl]
  rfl

theorem writeValue_withScr (u : Word) : (s.withScr v).writeValue u = s.writeValue u := by
  unfold State.writeValue
  rw [nsGuard_withScr h]
  rfl

theorem monitorTrapApplies_withScr {f : Field} (hn : f ≠ .net := by decide)
    (hi : f.implemented s.impl = true := by rfl) :
    (s.withScr v).monitorTrapApplies f = s.monitorTrapApplies f := by
  simp [State.monitorTrapApplies, governed_withScr h hn hi]

/-! ##### Instructions other than an access to SCR -/

theorem waitState_withScr (i : WaitInstr) (p : Bool) : waitState i p (s.withScr v) = (waitState i p s).withScr v := by
  have ht : (s.withScr v).monitorTrapApplies i.field = s.monitorTrapApplies i.field := by
    cases i
    · exact monitorTrapApplies_withScr h
    · exact monitorTrapApplies_withScr h
  unfold waitState
  rw [withScr_input, withScr_lowerTrap, ht, waitThenComplete_withScr]
  split_ifs <;> rfl

theorem smcState_withScr : smcState (s.withScr v) = (smcState s).withScr v := by
  unfold smcState
  rw [governedEl_withScr h, governedSecure_withScr h, governed_withScr h (f := .scd), withScr_impl, withScr_input]
  split_ifs <;> rfl

/-- HCE is read only where EL2, and so the field, is there (R75). -/
theorem hvcState_withScr : hvcState (s.withScr v) = (hvcState s).withScr v := by
  cases h2 : s.impl.haveEl2 with
  | false => simp [hvcState, h2, endWith_withScr]
  | true =>
    unfold hvcState
    rw [governedEl_withScr h, governedSecure_withScr h, governed_withScr h (f := .hce) (hi := h2), withScr_impl,
      withScr_input]
    split_ifs <;> rfl

theorem waitFor_withScr (i : WaitInstr) (p : Bool) :
    waitFor i p (s.withScr v) = onNext (State.withScr v) (waitFor i p s) := by
  unfold waitFor
  rw [waitState_withScr h, ← inConfiguration_withScr, onNext_next]

theorem exec_withScr_of_no_access {i : Instr} (hr : i.mrcRt = none) (hw : i.mcrRt = none) :
    exec i (s.withScr v) = onNext (State.withScr v) (exec i s) := by
  have call (u : State) : inConfiguration (s.withScr v) (.next (u.withScr v)) =
      onNext (State.withScr v) (inConfiguration s (.next u)) := inConfiguration_withScr v (.next u)
  cases i with
  | mrcA32 | mrcT32 => simp [Instr.mrcRt] at hr
  | mcrA32 | mcrT32 => simp [Instr.mcrRt] at hw
  | wfeA32 | wfiA32 | wfeT16 | wfiT16 | wfeW | wfiW => exact waitFor_withScr h _ _
  | smcA32 cond imm4 =>
    refine Eq.trans ?_ (call _)
    rw [apply_ite (State.withScr v), ← smcState_withScr h]
    rfl
  | smcT32 imm4 => exact (congrArg _ (congrArg _ (smcState_withScr h))).trans (call _)
  | hvcA32 imm16 | hvcT32 imm16 => exact (congrArg _ (congrArg _ (hvcState_withScr h))).trans (call _)

/-- TERR is read only where RAS, and so the field, is there (R78). -/
theorem execErrAccess_withScr (reg : ErrReg) (dir : ErrDir) :
    execErrAccess reg dir (s.withScr v) = onNext (State.withScr v) (execErrAccess reg dir s) := by
  unfold execErrAccess
  rw [← inConfiguration_withScr]
  congr 1
  cases hras : s.impl.haveRas with
  | false => simp [hras]
  | true =>
    simp only [withScr_impl, hras, withScr_input, monitorTrapApplies_withScr h (f := .terr) (hi := hras),
      endWith_withScr, apply_ite (onNext (State.withScr v)), onNext_next, onNext_refused]

/-! ##### Accesses to SCR -/

theorem scrAccess_withScr_below_el3 (hl : s.el ≠ .el3) (a b : State) :
    scrAccess (s.withScr v) a = onNext (State.withScr v) (scrAccess s b) := by
  obtain ⟨e, he⟩ := Option.ne_none_iff_exists'.1 fun hn => hl ((accessCheck_eq_none s).1 hn)
  rw [scrAccess_ended ((accessCheck_withScr h).trans he), scrAccess_ended he]
  rfl

theorem exec_withScr_below_el3 (hl : s.el ≠ .el3) (i : Instr) :
    exec i (s.withScr v) = onNext (State.withScr v) (exec i s) := by
  have access := scrAccess_withScr_below_el3 h hl
  cases i with
  | mrcA32 cond rt | mcrA32 cond rt => exact (congrArg _ (access _ _)).trans (onNext_admittedA32 _ _ _ _).symm
  | mrcT32 rt | mcrT32 rt => exact (congrArg _ (access _ _)).trans (onNext_admittedT32 _ _ _).symm
  | _ => exact exec_withScr_of_no_access h rfl rfl

theorem scrAccess_withScr_at_el3 (hl : s.el = .el3) (a : State) :
    scrAccess (s.withScr v) a = inConfiguration s (.next a) := by
  rw [scrAccess_at_el3 ((el_withScr h).trans hl)]
  rfl

/-- A write replaces the bits that differ. -/
theorem writeScr_withScr (hl : s.el = .el3) (rt : BitVec 4) : writeScr rt (s.withScr v) = writeScr rt s := by
  unfold writeScr
  rw [scrAccess_withScr_at_el3 h hl, writeValue_withScr h, scrAccess_at_el3 hl]
  rfl

theorem exec_withScr_of_mcr (hl : s.el = .el3) {i : Instr} (hw : i.mcrRt ≠ none) : exec i (s.withScr v) = exec i s := by
  cases i with
  | mcrA32 cond rt => exact congrArg (admittedA32 cond rt) (writeScr_withScr h hl rt)
  | mcrT32 rt => exact congrArg (admittedT32 rt) (writeScr_withScr h hl rt)
  | _ => exact absurd rfl hw

theorem readScr_withScr (hl : s.el = .el3) (rt : BitVec 4) :
    readScr rt (s.withScr v) = onNext (State.withScrRead v rt) (readScr rt s) := by
  unfold readScr
  rw [scrAccess_withScr_at_el3 h hl, scrAccess_at_el3 hl, onNext_inConfiguration, onNext_next,
    withScrRead_complete_setReg, withScr_scr]

theorem exec_withScr_of_mrc (hl : s.el = .el3) {i : Instr} {rt : BitVec 4} (hr : i.mrcRt = some rt) :
    exec i (s.withScr v) = onNext (State.withScrRead v rt) (exec i s) := by
  cases i with
  | mrcA32 cond rt =>
    obtain rfl := Option.some.inj hr
    exact (congrArg _ (readScr_withScr h hl _)).trans (onNext_admittedA32 _ _ _ _).symm
  | mrcT32 rt =>
    obtain rfl := Option.some.inj hr
    exact (congrArg _ (readScr_withScr h hl _)).trans (onNext_admittedT32 _ _ _).symm
  | _ => simp [Instr.mrcRt] at hr

/-! ##### The step -/

theorem arrive_withScr : arrive (s.withScr v) = (arrive s).withScr v := by
  unfold arrive
  rw [withScr_scr, h .sif (by decide) rfl]
  rfl

theorem asyncTaken_withScr : (s.withScr v).asyncTaken = s.asyncTaken := by
  have hm (k : Async) : (s.withScr v).masked k = s.masked k := by
    cases k with
    | irq => rfl
    | fiq =>
      simp only [State.masked, governed_withScr h (f := .fiq), governed_withScr h (f := .fw), governedSecure_withScr h]
      rfl
    | ea =>
      simp only [State.masked, governed_withScr h (f := .ea), governed_withScr h (f := .aw), governedSecure_withScr h]
      rfl
  simp [State.asyncTaken, hm]

theorem takeAsync_withScr (k : Async) : takeAsync k (s.withScr v) = (takeAsync k s).withScr v := by
  have hr : (s.withScr v).route k = s.route k := by
    cases k with
    | irq =>
      simp only [State.route, governed_withScr h (f := .irq)]
      rfl
    | fiq =>
      simp only [State.route, governed_withScr h (f := .fiq)]
      rfl
    | ea =>
      simp only [State.route, governed_withScr h (f := .ea)]
      rfl
  unfold takeAsync
  rw [hr]
  rfl

theorem fetchPermitted_withScr : (s.withScr v).fetchPermitted = s.fetchPermitted := by
  unfold State.fetchPermitted
  rw [governedSecure_withScr h]
  rfl

theorem runItem_withScr {item : ProgItem}
    (hc : ∀ c i, item = .code c → decode c = .ok i → i.mrcRt = none ∧ i.mcrRt = none) :
    runItem item (s.withScr v) = onNext (State.withScr v) (runItem item s) := by
  cases item with
  | code c =>
    cases hd : decode c with
    | ok i =>
      obtain ⟨hr, hw⟩ := hc c i rfl hd
      rw [runItem_of_decoded hd, runItem_of_decoded hd, exec_withScr_of_no_access h hr hw]
    | error r => simp [runItem, hd]
  | errAccess reg dir => exact execErrAccess_withScr h reg dir

variable (hc : ∀ c i, s.fetched = some (.code c) → decode c = .ok i → i.mrcRt = none ∧ i.mcrRt = none)
include hc

theorem fetchAndRun_withScr : fetchAndRun (s.withScr v) = onNext (State.withScr v) (fetchAndRun s) := by
  cases hf : s.fetched with
  | none => simp [fetchAndRun, hf]
  | some item =>
    have hp := fetchPermitted_withScr h
    cases hq : s.fetchPermitted with
    | true =>
      rw [fetchAndRun_of_permitted (s := s.withScr v) hf (hp.trans hq), fetchAndRun_of_permitted hf hq]
      exact runItem_withScr h fun c i he => hc c i (he ▸ hf)
    | false =>
      rw [fetchAndRun_of_forbidden (s := s.withScr v) hf (hp.trans hq), fetchAndRun_of_forbidden hf hq]
      rfl

theorem act_withScr : act (s.withScr v) = onNext (State.withScr v) (act s) := by
  cases hw : s.waiting with
  | true =>
    rw [act_of_waiting hw, act_of_waiting (s := s.withScr v) hw, waitThenComplete_withScr]
    rfl
  | false =>
    have ha := asyncTaken_withScr h
    cases hk : s.asyncTaken with
    | some k =>
      simp only [act, withScr_waiting, hw, ha, hk, takeAsync_withScr h]
      exact inConfiguration_withScr v (.next (takeAsync k s))
    | none =>
      rw [act_of_no_exception hw hk, act_of_no_exception (s := s.withScr v) hw (ha.trans hk)]
      exact fetchAndRun_withScr h hc

theorem step_withScr : step (s.withScr v) = onNext (State.withScr v) (step s) := by
  cases he : s.ended with
  | some e => simp [step, he]
  | none =>
    rw [step_of_running he, step_of_running (s := s.withScr v) he, arrive_withScr h, act_withScr (s := arrive s) h hc]
    cases act (arrive s) <;> rfl

end

/-- Settles O54: such bits agree on every field a rule reads, so each part of a step commutes with replacing them. -/
theorem reservedBitsAndNetHaveNoEffect : Obligations.ReservedBitsAndNetHaveNoEffect := by
  intro s d hd
  have h : AgreeOnFields s.impl (s.scr ^^^ d) s.scr := agreeOnFields_xor hd s.scr
  refine ⟨fun i hi => ?_, fun i hw hl => exec_withScr_of_mcr h hl hw, fun i rt hr hl => exec_withScr_of_mrc h hl hr,
    execErrAccess_withScr h, step_withScr h⟩
  rcases hi with ⟨hr, hw⟩ | hl
  · exact exec_withScr_of_no_access h hr hw
  · exact exec_withScr_below_el3 h hl i

end Sys2Proof.Machine

/-! ### Stored bytes, the fetch under SIF, the governing value of SCR, and what an instruction changes -/

namespace Sys2Proof

/-! #### The rows of the decoder (R54, R55, R57 to R59) -/

theorem Pattern.hits_iff {p : Pattern} {w : Word} : p.hits w = true ↔ w &&& p.mask = p.value := beq_iff_eq

/-- A word has the fixed bits of one row only, where the two rows differ in a bit that both fix. -/
theorem Pattern.not_hits_of_hits {p q : Pattern} {w : Word} (h : p.hits w = true)
    (hpq : p.value &&& q.mask ≠ q.value &&& p.mask) : q.hits w = false := by
  refine Bool.eq_false_iff.2 fun hq => hpq ?_
  rw [← hits_iff.1 h, ← hits_iff.1 hq, BitVec.and_assoc, BitVec.and_assoc, BitVec.and_comm p.mask]

theorem withRt_of_ok {ok : BitVec 4 → Bool} {w : Word} {rt : BitVec 4} (mk : BitVec 4 → Instr) (hf : rtField w = rt)
    (hr : ok rt = true) : withRt ok w mk = .ok (mk rt) := by
  simp [withRt, hf, hr]

theorem decodeA32_of_hvc {w : Word} (h : patHvcA32.hits w = true) :
    decodeA32 w = .ok (.hvcA32 (w.extractLsb' 8 12 ++ w.extractLsb' 0 4)) := by
  simp only [decodeA32, h, if_true]

section
variable {w : Word} {cond : BitVec 4} (hf : condField w = cond) (hc : condOk cond = true)
include hf hc

theorem decodeA32_of_mrc (h : patMrcA32.hits w = true) : decodeA32 w = withRt rtOkA32 w (.mrcA32 cond) := by
  simp [decodeA32, hf, hc, h, Pattern.not_hits_of_hits h (q := patHvcA32) (by decide)]

theorem decodeA32_of_mcr (h : patMcrA32.hits w = true) : decodeA32 w = withRt rtOkA32 w (.mcrA32 cond) := by
  simp [decodeA32, hf, hc, h, Pattern.not_hits_of_hits h (q := patHvcA32) (by decide),
    Pattern.not_hits_of_hits h (q := patMrcA32) (by decide)]

theorem decodeA32_of_wfe (h : patWfeA32.hits w = true) : decodeA32 w = .ok (.wfeA32 cond) := by
  simp [decodeA32, hf, hc, h, Pattern.not_hits_of_hits h (q := patHvcA32) (by decide),
    Pattern.not_hits_of_hits h (q := patMrcA32) (by decide), Pattern.not_hits_of_hits h (q := patMcrA32) (by decide)]

theorem decodeA32_of_wfi (h : patWfiA32.hits w = true) : decodeA32 w = .ok (.wfiA32 cond) := by
  simp [decodeA32, hf, hc, h, Pattern.not_hits_of_hits h (q := patHvcA32) (by decide),
    Pattern.not_hits_of_hits h (q := patMrcA32) (by decide), Pattern.not_hits_of_hits h (q := patMcrA32) (by decide),
    Pattern.not_hits_of_hits h (q := patWfeA32) (by decide)]

theorem decodeA32_of_smc (h : patSmcA32.hits w = true) : decodeA32 w = .ok (.smcA32 cond (w.extractLsb' 0 4)) := by
  simp [decodeA32, hf, hc, h, Pattern.not_hits_of_hits h (q := patHvcA32) (by decide),
    Pattern.not_hits_of_hits h (q := patMrcA32) (by decide), Pattern.not_hits_of_hits h (q := patMcrA32) (by decide),
    Pattern.not_hits_of_hits h (q := patWfeA32) (by decide), Pattern.not_hits_of_hits h (q := patWfiA32) (by decide)]

end

section
variable {w : Word}

theorem decodeT32_of_mrc (h : patMrcT32.hits w = true) : decodeT32 w = withRt rtOkT32 w .mrcT32 := by
  simp only [decodeT32, h, if_true]

theorem decodeT32_of_mcr (h : patMcrT32.hits w = true) : decodeT32 w = withRt rtOkT32 w .mcrT32 := by
  simp [decodeT32, h, Pattern.not_hits_of_hits h (q := patMrcT32) (by decide)]

theorem decodeT32_of_smc (h : patSmcT32.hits w = true) : decodeT32 w = .ok (.smcT32 (w.extractLsb' 16 4)) := by
  simp [decodeT32, h, Pattern.not_hits_of_hits h (q := patMrcT32) (by decide),
    Pattern.not_hits_of_hits h (q := patMcrT32) (by decide), Pattern.not_hits_of_hits h (q := patWfeW) (by decide),
    Pattern.not_hits_of_hits h (q := patWfiW) (by decide)]

theorem decodeT32_of_hvc (h : patHvcT32.hits w = true) :
    decodeT32 w = .ok (.hvcT32 (w.extractLsb' 16 4 ++ w.extractLsb' 0 12)) := by
  simp [decodeT32, h, Pattern.not_hits_of_hits h (q := patMrcT32) (by decide),
    Pattern.not_hits_of_hits h (q := patMcrT32) (by decide), Pattern.not_hits_of_hits h (q := patWfeW) (by decide),
    Pattern.not_hits_of_hits h (q := patWfiW) (by decide), Pattern.not_hits_of_hits h (q := patSmcT32) (by decide)]

end

/-! #### The words of an instruction: the masks drop the free fields and keep the rest (R54, R55, R59) -/

theorem accessA32_and_mask (cond rt : BitVec 4) (op low : BitVec 12) :
    (cond ++ op ++ rt ++ low) &&& 0x0FFF0FFF#32 = 0#4 ++ op ++ 0#4 ++ low := by
  change (cond ++ op ++ rt ++ low) &&& (0#4 ++ BitVec.allOnes 12 ++ 0#4 ++ BitVec.allOnes 12) = _
  simp only [BitVec.and_append, BitVec.and_zero, BitVec.and_allOnes]

theorem hintA32_and_mask (cond : BitVec 4) (low : BitVec 28) : (cond ++ low) &&& 0x0FFFFFFF#32 = 0#4 ++ low := by
  change (cond ++ low) &&& (0#4 ++ BitVec.allOnes 28) = _
  simp only [BitVec.and_append, BitVec.and_zero, BitVec.and_allOnes]

theorem smcA32_and_mask (cond imm4 : BitVec 4) (op : BitVec 24) :
    (cond ++ op ++ imm4) &&& 0x0FFFFFF0#32 = 0#4 ++ op ++ 0#4 := by
  change (cond ++ op ++ imm4) &&& (0#4 ++ BitVec.allOnes 24 ++ 0#4) = _
  simp only [BitVec.and_append, BitVec.and_zero, BitVec.and_allOnes]

theorem hvcA32_and_mask (op mid : BitVec 12) (n low : BitVec 4) :
    (op ++ mid ++ n ++ low) &&& 0xFFF000F0#32 = op ++ 0#12 ++ n ++ 0#4 := by
  change (op ++ mid ++ n ++ low) &&& (BitVec.allOnes 12 ++ 0#12 ++ BitVec.allOnes 4 ++ 0#4) = _
  simp only [BitVec.and_append, BitVec.and_zero, BitVec.and_allOnes]

theorem accessT32_and_mask (hw1 : Half) (rt : BitVec 4) (low : BitVec 12) :
    (hw1 ++ (rt ++ low)) &&& 0xFFFF0FFF#32 = hw1 ++ (0#4 ++ low) := by
  change (hw1 ++ (rt ++ low)) &&& (BitVec.allOnes 16 ++ (0#4 ++ BitVec.allOnes 12)) = _
  simp only [BitVec.and_append, BitVec.and_zero, BitVec.and_allOnes]

theorem smcT32_and_mask (op : BitVec 12) (imm4 : BitVec 4) (hw2 : Half) :
    ((op ++ imm4) ++ hw2) &&& 0xFFF0FFFF#32 = (op ++ 0#4) ++ hw2 := by
  change ((op ++ imm4) ++ hw2) &&& ((BitVec.allOnes 12 ++ 0#4) ++ BitVec.allOnes 16) = _
  simp only [BitVec.and_append, BitVec.and_zero, BitVec.and_allOnes]

theorem hvcT32_and_mask (op low : BitVec 12) (high n : BitVec 4) :
    ((op ++ high) ++ (n ++ low)) &&& 0xFFF0F000#32 = (op ++ 0#4) ++ (n ++ 0#12) := by
  change ((op ++ high) ++ (n ++ low)) &&& ((BitVec.allOnes 12 ++ 0#4) ++ (BitVec.allOnes 4 ++ 0#12)) = _
  simp only [BitVec.and_append, BitVec.and_zero, BitVec.and_allOnes]

/-- A value is its high bits before its low bits. -/
theorem extractLsb'_high_append_low {m n : Nat} (x : BitVec (m + n)) : x.extractLsb' n m ++ x.extractLsb' 0 n = x := by
  rw [BitVec.extractLsb'_append_extractLsb'_eq_extractLsb' n.zero_add.symm, BitVec.extractLsb'_eq_self]

theorem extractLsb'_middle {l m n : Nat} (x : BitVec l) (y : BitVec m) (z : BitVec n) :
    (x ++ y ++ z).extractLsb' n m = y := by
  rw [BitVec.extractLsb'_append_eq_of_le (Nat.le_refl n), BitVec.extractLsb'_append_eq_of_add_le (by omega), Nat.sub_self,
    BitVec.extractLsb'_eq_self]

/-- The condition of an access stands above three fields. -/
theorem condField_access (cond rt : BitVec 4) (op low : BitVec 12) : condField (cond ++ op ++ rt ++ low) = cond := by
  unfold condField
  rw [BitVec.extractLsb'_append_eq_of_le (by decide), BitVec.extractLsb'_append_eq_of_le (by decide)]
  exact BitVec.extractLsb'_append_eq_left

theorem condField_smc (cond imm4 : BitVec 4) (op : BitVec 24) : condField (cond ++ op ++ imm4) = cond := by
  unfold condField
  rw [BitVec.extractLsb'_append_eq_of_le (by decide)]
  exact BitVec.extractLsb'_append_eq_left

theorem rtField_accessT32 (hw1 : Half) (rt : BitVec 4) (low : BitVec 12) : rtField (hw1 ++ (rt ++ low)) = rt := by
  unfold rtField
  rw [BitVec.extractLsb'_append_eq_of_add_le (by decide)]
  exact BitVec.extractLsb'_append_eq_left

/-- The first halfword of an SMC or an HVC is a wide one, whatever the immediate (R57). -/
theorem isWide_of_call (imm4 : BitVec 4) : isWide (0xF7F#12 ++ imm4) = true ∧ isWide (0xF7E#12 ++ imm4) = true := by
  decide +revert

/-- The words of a well-formed instruction decode to it (R54, R55, R59), row by row. -/
theorem decode_encode {i : Instr} (hi : i.wf = true) : decode (encode i) = .ok i := by
  cases i with
  | mrcA32 cond rt =>
    obtain ⟨hc, hr⟩ := Bool.and_eq_true_iff.1 hi
    exact (decodeA32_of_mrc (condField_access ..) hc (Pattern.hits_iff.2 (accessA32_and_mask ..))).trans
      (withRt_of_ok _ (extractLsb'_middle ..) hr)
  | mcrA32 cond rt =>
    obtain ⟨hc, hr⟩ := Bool.and_eq_true_iff.1 hi
    exact (decodeA32_of_mcr (condField_access ..) hc (Pattern.hits_iff.2 (accessA32_and_mask ..))).trans
      (withRt_of_ok _ (extractLsb'_middle ..) hr)
  | mrcT32 rt =>
    exact (decodeT32_of_mrc (Pattern.hits_iff.2 (accessT32_and_mask ..))).trans
      (withRt_of_ok _ (rtField_accessT32 ..) hi)
  | mcrT32 rt =>
    exact (decodeT32_of_mcr (Pattern.hits_iff.2 (accessT32_and_mask ..))).trans
      (withRt_of_ok _ (rtField_accessT32 ..) hi)
  | wfeA32 cond =>
    exact decodeA32_of_wfe BitVec.extractLsb'_append_eq_left hi (Pattern.hits_iff.2 (hintA32_and_mask ..))
  | wfiA32 cond =>
    exact decodeA32_of_wfi BitVec.extractLsb'_append_eq_left hi (Pattern.hits_iff.2 (hintA32_and_mask ..))
  | smcA32 cond imm4 =>
    rw [encode, decode, decodeA32_of_smc (condField_smc ..) hi (Pattern.hits_iff.2 (smcA32_and_mask ..)),
      BitVec.extractLsb'_append_eq_right]
  | hvcA32 imm16 =>
    rw [encode, decode, decodeA32_of_hvc (Pattern.hits_iff.2 (hvcA32_and_mask ..)), BitVec.extractLsb'_append_eq_right,
      BitVec.extractLsb'_append_eq_of_le (by decide), extractLsb'_middle, extractLsb'_high_append_low (n := 4) imm16]
  | smcT32 imm4 =>
    rw [encode, decode, (isWide_of_call imm4).1, if_pos rfl, decodeT32_of_smc (Pattern.hits_iff.2 (smcT32_and_mask ..)),
      extractLsb'_middle]
  | hvcT32 imm16 =>
    rw [encode, decode, (isWide_of_call _).2, if_pos rfl, decodeT32_of_hvc (Pattern.hits_iff.2 (hvcT32_and_mask ..)),
      extractLsb'_middle, BitVec.extractLsb'_append_eq_of_add_le (by decide), BitVec.extractLsb'_append_eq_right,
      extractLsb'_high_append_low (n := 12) imm16]
  | wfeT16 | wfiT16 | wfeW | wfiW => rfl

theorem encode_set (i : Instr) : (encode i).set = i.set := by
  cases i <;> rfl

/-! #### The stored bytes (R43, R57) -/

theorem halfOfBytes_bytes (hw : Half) : halfOfBytes (hw.extractLsb' 0 8) (hw.extractLsb' 8 8) = hw :=
  extractLsb'_high_append_low (n := 8) hw

/-- The bytes of words that decode are read back as those words: what decodes has the length of its first halfword (R57). -/
theorem codeWordOfBytes_bytes {c : CodeWord} {i : Instr} (hd : decode c = .ok i) (rest : List Byte) :
    codeWordOfBytes c.set (c.bytes ++ rest) = .ok (c, rest) := by
  cases c with
  | a32 w =>
    simp only [CodeWord.set, CodeWord.bytes, bytesOfHalf, List.cons_append, List.nil_append, codeWordOfBytes,
      halfOfBytes_bytes, extractLsb'_high_append_low (n := 16) w]
  | t16 hw =>
    have hn : isWide hw = false := by
      by_contra hw
      simp [decode, Bool.eq_true_of_not_eq_false hw] at hd
    simp [CodeWord.set, CodeWord.bytes, bytesOfHalf, codeWordOfBytes, halfOfBytes_bytes, hn]
  | t32 hw1 hw2 =>
    have hw : isWide hw1 = true := by
      by_contra hn
      simp [decode, hn] at hd
    simp [CodeWord.set, CodeWord.bytes, bytesOfHalf, codeWordOfBytes, halfOfBytes_bytes, hw]

/-- Settles O3: the length rule finds the words of the instruction, and they decode to it. -/
theorem storedBytesDecode : Obligations.StoredBytesDecode := by
  intro i rest hi
  have hd := decode_encode hi
  rw [← encode_set i, decodeBytes, codeWordOfBytes_bytes hd rest]
  simp only [hd]

end Sys2Proof

namespace Sys2Proof.Machine

/-! #### Secure instruction fetch (R41) -/

theorem fetchPermitted_of_exists {s : State} (hx : s.impl.scrExists = true) :
    s.fetchPermitted = !(s.governedSecure && s.input.ns && s.sifEff) := by
  simp [State.fetchPermitted, hx]

/-- Settles O10: without an exception the PE fetches, and the fetch is permitted but for the three conditions together. -/
theorem secureFetchUnderSif : Obligations.SecureFetchUnderSif := by
  intro s item he hw hx ha hf
  have hp : (arrive s).fetchPermitted = !(s.governedSecure && s.input.ns && (arrive s).sifEff) :=
    fetchPermitted_of_exists (s := arrive s) hx
  rw [step_of_running he, act_of_no_exception (s := arrive s) hw ha]
  refine ⟨fun hs hn hsif => ?_, fun h => ?_⟩
  · rw [fetchAndRun_of_forbidden (s := arrive s) hf (by simp [hp, hs, hn, hsif])]
    rfl
  · have hp : (arrive s).fetchPermitted = true := by
      rcases h with h | h | h <;> simp [hp, h]
    rw [fetchAndRun_of_permitted (s := arrive s) hf hp]

/-! #### The value of SCR that governs (R48, R66) -/

section
variable {s : State}

theorem governing_of_immediate (h : s.impl.syncModel = .immediate) : s.governing = s.scr := by
  simp [State.governing, h]

theorem governing_of_relaxed (h : s.impl.syncModel = .relaxed) :
    s.governing = drawnScr s.input.scrDraw s.scr s.scrHist := by
  simp [State.governing, h]

/-- Under both models, where `scr_hist` holds SCR, each bit that governs is that bit of a value SCR has held. -/
theorem governing_getLsbD_held (hc : s.scr ∈ s.scrHist) (i : Nat) :
    ∃ v ∈ s.scrHist, s.governing.getLsbD i = v.getLsbD i := by
  cases h : s.impl.syncModel with
  | immediate => exact ⟨s.scr, hc, by rw [governing_of_immediate h]⟩
  | relaxed =>
    obtain ⟨v, hv, e⟩ := drawnScr_sound s.input.scrDraw s.scr s.scrHist i
    refine ⟨v, ?_, governing_of_relaxed h ▸ e⟩
    rcases List.mem_cons.1 hv with rfl | hv
    · exact hc
    · exact hv

end

/-- Settles O56, from the soundness and the completeness of the draw. -/
theorem governingValue : Obligations.GoverningValue := by
  refine ⟨fun s h => governing_of_immediate h, fun s i hc h => ⟨governing_getLsbD_held hc i, fun v hv hd => ?_⟩⟩
  rw [governing_of_relaxed h]
  exact drawnScr_complete _ _ _ _ _ (List.mem_cons_of_mem _ hv) hd

/-- Settles O21: NS is 1 in every value SCR has held, so in the one that governs. -/
theorem hypIsNonSecureUnderEveryDraw : Obligations.HypIsNonSecureUnderEveryDraw := by
  intro s hi hm
  have hn : field .ns s.governing = true := by
    obtain ⟨v, hv, e⟩ := governing_getLsbD_held hi.histCurrent Field.ns.bit
    exact e.trans (hi.hypMode hm v hv)
  simp [State.governedSecure, State.governedEl, secureUnder, elUnder, hm, hn]

/-! #### MRC after MCR (R47, R61, R63) -/

section
variable {s : State} (hx : s.impl.scrExists = true) (hl : s.el = .el3) (rt : BitVec 4)
include hx hl

theorem readScr_at_el3 : readScr rt s = .next (complete (s.setReg rt s.scr)) :=
  scrAccess_allowed ((accessCheck_eq_none s).2 hl) hx _

theorem writeScr_at_el3 : writeScr rt s = .next (complete (setScr (s.writeValue (s.reg rt)) s)) :=
  scrAccess_allowed ((accessCheck_eq_none s).2 hl) hx _

end

theorem el_of_monitor {s : State} (hm : s.mode = .monitor) : s.el = .el3 := by
  simp [State.el, elUnder, hm]

/-- Settles O30: Monitor mode is at EL3 whatever the MCR leaves in NS, and an MRC reads the current SCR. -/
theorem readAfterWrite : Obligations.ReadAfterWrite := by
  intro s rt ru hx hm hrt hru
  set t := complete (setScr (s.writeValue (s.reg rt)) s)
  have hw : exec (.mcrA32 14#4 rt) s = .next t :=
    (exec_of_mcrRt (i := .mcrA32 14#4 rt) hrt rfl s).trans (writeScr_at_el3 hx (el_of_monitor hm) rt)
  have hr : exec (.mrcA32 14#4 ru) t = .next (complete (t.setReg ru t.scr)) :=
    (exec_of_mrcRt (i := .mrcA32 14#4 ru) hru rfl t).trans (readScr_at_el3 (s := t) hx (el_of_monitor (s := t) hm) ru)
  exact ⟨t, _, hw, hr, reg_setReg_same t ru _, rfl, fun r h => reg_setReg_other t ru r _ h⟩

/-! #### What an instruction leaves unchanged (R45, R61, R63, R66, R72, R101) -/

section
variable {i : Instr} {s t : State} (h : ExecDoes i s t)
include h

theorem ExecDoes.pend_env_tick : t.pend = s.pend ∧ t.env = s.env ∧ t.tick = s.tick := by
  cases h <;> exact ⟨rfl, rfl, rfl⟩

theorem ExecDoes.reg_eq {r : BitVec 4} (hr : i.mrcRt ≠ some r) : t.reg r = s.reg r := by
  cases h with
  | reads rt hrt => exact reg_setReg_other s rt r _ fun e => hr (e ▸ hrt)
  | ends | completes | waits | writes => rfl

theorem ExecDoes.scr_eq (hw : i.mcrRt = none) : t.scr = s.scr ∧ t.sifTlb = s.sifTlb ∧ t.scrHist = s.scrHist := by
  cases h with
  | writes rt hrt => simp [hw] at hrt
  | ends | completes | waits | reads => exact ⟨rfl, rfl, rfl⟩

/-- How an instruction leaves `pc`: it ends the run, it waits, or it goes on to the next place. -/
theorem ExecDoes.pc_cases :
    (∃ e, t = endWith e s) ∨ (t = keepWaiting s ∧ i.waitOf ≠ none) ∨
      (t.pc = s.pc + 1 ∧ t.waiting = false ∧ t.ended = s.ended) := by
  cases h with
  | ends e => exact .inl ⟨e, rfl⟩
  | waits w hi => exact .inr (.inl ⟨rfl, by simp [hi]⟩)
  | completes | reads | writes => exact .inr (.inr ⟨rfl, rfl, rfl⟩)

end

/-- Settles O49, from everything an instruction can do. -/
theorem instructionFrame : Obligations.InstructionFrame := by
  intro i s t h
  have hd := exec_does h
  obtain ⟨hpend, henv, htick⟩ := hd.pend_env_tick
  refine ⟨hd.sameFixed, hpend, henv, htick, fun r hr => hd.reg_eq hr, fun hw => hd.scr_eq hw, ?_⟩
  rcases hd.pc_cases with ⟨e, rfl⟩ | ⟨rfl, hi⟩ | ⟨hpc, hwait, hend⟩
  · exact ⟨.inl rfl, by simp, .inl, by simp, fun _ => rfl⟩
  · exact ⟨.inl rfl, by simp, fun _ => .inr hi, fun _ => .inr rfl, by simp⟩
  · exact ⟨.inr hpc, fun _ => ⟨hwait, hend⟩, by simp [hwait], fun _ => .inl hpc, by simp [hend]⟩

end Sys2Proof.Machine

/-! ### Decode and encode agree on every word, and what is refused by name -/

namespace Sys2Proof

/-! #### The fields of a word with the fixed bits of a row (R54, R55, R59) -/

/-- A field whose bits a row all fixes holds what the row says. -/
theorem Pattern.extractLsb'_of_hits {p : Pattern} {w : Word} {start len : Nat} (h : p.hits w = true)
    (hm : p.mask.extractLsb' start len = BitVec.allOnes len) : w.extractLsb' start len = p.value.extractLsb' start len := by
  rw [← hits_iff.1 h, BitVec.extractLsb'_and, hm, BitVec.and_allOnes]

theorem Pattern.eq_value_of_hits {p : Pattern} {w : Word} (h : p.hits w = true) (hm : p.mask = BitVec.allOnes 32) :
    w = p.value := by
  rw [← hits_iff.1 h, hm, BitVec.and_allOnes]

/-- Two neighbouring fields are one field. -/
theorem extractLsb'_append_adjacent (w : Word) (start high low : Nat) :
    w.extractLsb' (start + low) high ++ w.extractLsb' start low = w.extractLsb' start (high + low) :=
  BitVec.extractLsb'_append_extractLsb'_eq_extractLsb' rfl

theorem withRt_eq_ok {ok : BitVec 4 → Bool} {w : Word} {mk : BitVec 4 → Instr} {i : Instr} (h : withRt ok w mk = .ok i) :
    ok (rtField w) = true ∧ mk (rtField w) = i := by
  unfold withRt at h
  split at h
  · exact ⟨‹_›, Except.ok.inj h⟩
  · cases h

theorem withRt_of_not_ok {ok : BitVec 4 → Bool} {w : Word} {rt : BitVec 4} (mk : BitVec 4 → Instr) (hf : rtField w = rt)
    (hr : ok rt = false) : withRt ok w mk = .error .badRt := by
  simp [withRt, hf, hr]

/-! #### The words of what decodes are the words decoded -/

/-- An A32 word is its condition, the access, its register and the coprocessor (R54). -/
theorem accessA32_fields (w : Word) :
    condField w ++ w.extractLsb' 16 12 ++ rtField w ++ w.extractLsb' 0 12 = w := by
  rw [condField, rtField, extractLsb'_append_adjacent w 16 4 12, extractLsb'_append_adjacent w 12 16 4]
  exact extractLsb'_high_append_low (n := 12) w

section
variable {w : Word}

theorem encode_mrcA32_of_hits (h : patMrcA32.hits w = true) : encode (.mrcA32 (condField w) (rtField w)) = .a32 w := by
  have hop : w.extractLsb' 16 12 = 0xE11#12 := Pattern.extractLsb'_of_hits h rfl
  have hlow : w.extractLsb' 0 12 = 0xF11#12 := Pattern.extractLsb'_of_hits h rfl
  rw [encode, ← hop, ← hlow, accessA32_fields]

theorem encode_mcrA32_of_hits (h : patMcrA32.hits w = true) : encode (.mcrA32 (condField w) (rtField w)) = .a32 w := by
  have hop : w.extractLsb' 16 12 = 0xE01#12 := Pattern.extractLsb'_of_hits h rfl
  have hlow : w.extractLsb' 0 12 = 0xF11#12 := Pattern.extractLsb'_of_hits h rfl
  rw [encode, ← hop, ← hlow, accessA32_fields]

theorem encode_wfeA32_of_hits (h : patWfeA32.hits w = true) : encode (.wfeA32 (condField w)) = .a32 w := by
  have hlow : w.extractLsb' 0 28 = 0x320F002#28 := Pattern.extractLsb'_of_hits h rfl
  rw [encode, condField, ← hlow, extractLsb'_high_append_low (n := 28) w]

theorem encode_wfiA32_of_hits (h : patWfiA32.hits w = true) : encode (.wfiA32 (condField w)) = .a32 w := by
  have hlow : w.extractLsb' 0 28 = 0x320F003#28 := Pattern.extractLsb'_of_hits h rfl
  rw [encode, condField, ← hlow, extractLsb'_high_append_low (n := 28) w]

theorem encode_smcA32_of_hits (h : patSmcA32.hits w = true) :
    encode (.smcA32 (condField w) (w.extractLsb' 0 4)) = .a32 w := by
  have hop : w.extractLsb' 4 24 = 0x160007#24 := Pattern.extractLsb'_of_hits h rfl
  rw [encode, condField, ← hop, extractLsb'_append_adjacent w 4 4 24, extractLsb'_high_append_low (n := 4) w]

theorem encode_hvcA32_of_hits (h : patHvcA32.hits w = true) :
    encode (.hvcA32 (w.extractLsb' 8 12 ++ w.extractLsb' 0 4)) = .a32 w := by
  have hop : w.extractLsb' 20 12 = 0xE14#12 := Pattern.extractLsb'_of_hits h rfl
  have hmid : w.extractLsb' 4 4 = 0x7#4 := Pattern.extractLsb'_of_hits h rfl
  rw [encode, BitVec.extractLsb'_append_eq_left, BitVec.extractLsb'_append_eq_right, ← hop, ← hmid,
    extractLsb'_append_adjacent w 8 12 12, extractLsb'_append_adjacent w 4 24 4, extractLsb'_high_append_low (n := 4) w]

/-- What an A32 word decodes to is well formed, and its word is that one: row by row. -/
theorem wf_and_encode_of_decodeA32 {i : Instr} (h : decodeA32 w = .ok i) : i.wf = true ∧ encode i = .a32 w := by
  unfold decodeA32 at h
  split at h
  · cases h
    exact ⟨rfl, encode_hvcA32_of_hits ‹_›⟩
  split at h
  case isFalse => cases h
  rename_i hc
  split at h
  · obtain ⟨hr, rfl⟩ := withRt_eq_ok h
    exact ⟨Bool.and_eq_true_iff.2 ⟨hc, hr⟩, encode_mrcA32_of_hits ‹_›⟩
  split at h
  · obtain ⟨hr, rfl⟩ := withRt_eq_ok h
    exact ⟨Bool.and_eq_true_iff.2 ⟨hc, hr⟩, encode_mcrA32_of_hits ‹_›⟩
  split at h
  · cases h
    exact ⟨hc, encode_wfeA32_of_hits ‹_›⟩
  split at h
  · cases h
    exact ⟨hc, encode_wfiA32_of_hits ‹_›⟩
  split at h
  · cases h
    exact ⟨hc, encode_smcA32_of_hits ‹_›⟩
  · cases h

theorem wf_and_encode_of_decodeT16 {hw : Half} {i : Instr} (h : decodeT16 hw = .ok i) :
    i.wf = true ∧ encode i = .t16 hw := by
  unfold decodeT16 at h
  split at h
  · cases h
    exact ⟨rfl, congrArg CodeWord.t16 (beq_iff_eq.1 ‹_›).symm⟩
  split at h
  · cases h
    exact ⟨rfl, congrArg CodeWord.t16 (beq_iff_eq.1 ‹_›).symm⟩
  · cases h

/-- The two halfwords that are read as `hw1 : hw2` (R55). -/
def halvesOf (w : Word) : CodeWord := .t32 (w.extractLsb' 16 16) (w.extractLsb' 0 16)

theorem halvesOf_append (hw1 hw2 : Half) : halvesOf (hw1 ++ hw2) = .t32 hw1 hw2 := by
  rw [halvesOf, BitVec.extractLsb'_append_eq_left, BitVec.extractLsb'_append_eq_right]

theorem encode_mrcT32_of_hits (h : patMrcT32.hits w = true) : encode (.mrcT32 (rtField w)) = halvesOf w := by
  have hop : w.extractLsb' 16 16 = 0xEE11#16 := Pattern.extractLsb'_of_hits h rfl
  have hlow : w.extractLsb' 0 12 = 0xF11#12 := Pattern.extractLsb'_of_hits h rfl
  rw [encode, halvesOf, rtField, hop, ← hlow, extractLsb'_append_adjacent w 0 4 12]

theorem encode_mcrT32_of_hits (h : patMcrT32.hits w = true) : encode (.mcrT32 (rtField w)) = halvesOf w := by
  have hop : w.extractLsb' 16 16 = 0xEE01#16 := Pattern.extractLsb'_of_hits h rfl
  have hlow : w.extractLsb' 0 12 = 0xF11#12 := Pattern.extractLsb'_of_hits h rfl
  rw [encode, halvesOf, rtField, hop, ← hlow, extractLsb'_append_adjacent w 0 4 12]

theorem encode_smcT32_of_hits (h : patSmcT32.hits w = true) : encode (.smcT32 (w.extractLsb' 16 4)) = halvesOf w := by
  have hop : w.extractLsb' 20 12 = 0xF7F#12 := Pattern.extractLsb'_of_hits h rfl
  have hlow : w.extractLsb' 0 16 = 0x8000#16 := Pattern.extractLsb'_of_hits h rfl
  rw [encode, halvesOf, ← hop, hlow, extractLsb'_append_adjacent w 16 12 4]

theorem encode_hvcT32_of_hits (h : patHvcT32.hits w = true) :
    encode (.hvcT32 (w.extractLsb' 16 4 ++ w.extractLsb' 0 12)) = halvesOf w := by
  have hop : w.extractLsb' 20 12 = 0xF7E#12 := Pattern.extractLsb'_of_hits h rfl
  have hmid : w.extractLsb' 12 4 = 0x8#4 := Pattern.extractLsb'_of_hits h rfl
  rw [encode, halvesOf, BitVec.extractLsb'_append_eq_left, BitVec.extractLsb'_append_eq_right, ← hop, ← hmid,
    extractLsb'_append_adjacent w 16 12 4, extractLsb'_append_adjacent w 0 4 12]

/-- What a 32-bit T32 word decodes to is well formed, and its halfwords are that word's: row by row. -/
theorem wf_and_encode_of_decodeT32 {i : Instr} (h : decodeT32 w = .ok i) : i.wf = true ∧ encode i = halvesOf w := by
  unfold decodeT32 at h
  split at h
  · obtain ⟨hr, rfl⟩ := withRt_eq_ok h
    exact ⟨hr, encode_mrcT32_of_hits ‹_›⟩
  split at h
  · obtain ⟨hr, rfl⟩ := withRt_eq_ok h
    exact ⟨hr, encode_mcrT32_of_hits ‹_›⟩
  split at h
  · cases h
    obtain rfl : w = 0xF3AF8002#32 := Pattern.eq_value_of_hits ‹_› rfl
    exact ⟨rfl, rfl⟩
  split at h
  · cases h
    obtain rfl : w = 0xF3AF8003#32 := Pattern.eq_value_of_hits ‹_› rfl
    exact ⟨rfl, rfl⟩
  split at h
  · cases h
    exact ⟨rfl, encode_smcT32_of_hits ‹_›⟩
  split at h
  · cases h
    exact ⟨rfl, encode_hvcT32_of_hits ‹_›⟩
  · cases h

end

/-- Settles O1: the words of a well-formed instruction decode to it. -/
theorem decodeOfEncodeIsTheInstruction : Obligations.DecodeOfEncodeIsTheInstruction := fun _ hi => decode_encode hi

/-- Settles O2, by the kind of code word: a row fixes the bits that are in no field of its instruction. -/
theorem encodeOfDecodeIsTheWord : Obligations.EncodeOfDecodeIsTheWord := by
  intro c i h
  cases c with
  | a32 w => exact wf_and_encode_of_decodeA32 h
  | t16 hw =>
    rw [decode] at h
    split at h
    · cases h
    · exact wf_and_encode_of_decodeT16 h
  | t32 hw1 hw2 =>
    rw [decode] at h
    split at h
    · exact halvesOf_append hw1 hw2 ▸ wf_and_encode_of_decodeT32 h
    · cases h

/-! #### What is refused by name (R54, R57, R58) -/

theorem decodeA32_of_cond_not_ok {w : Word} (hc : condOk (condField w) = false) : decodeA32 w = .error .notInScope := by
  have hn : patHvcA32.hits w = false := by
    refine Bool.eq_false_iff.2 fun h => ?_
    have h14 : condField w = 14#4 := Pattern.extractLsb'_of_hits h rfl
    simp [h14, condOk] at hc
  simp [decodeA32, hn, hc]

/-- Settles O5: no row has the condition 0b1111, an SCR row checks the register, and `decode` the length. -/
theorem otherWordsAreRefusedByName : Obligations.OtherWordsAreRefusedByName := by
  refine ⟨fun w h => ?_, fun cond h => ?_, fun rt h => ?_, fun hw h => ?_, fun hw1 hw2 h => ?_⟩
  · exact decodeA32_of_cond_not_ok (by rw [condField, h]; rfl)
  · have hc : condOk cond = true := bne_iff_ne.2 h
    exact ⟨(decodeA32_of_mrc (condField_access ..) hc (Pattern.hits_iff.2 (accessA32_and_mask ..))).trans
        (withRt_of_not_ok _ (extractLsb'_middle ..) rfl),
      (decodeA32_of_mcr (condField_access ..) hc (Pattern.hits_iff.2 (accessA32_and_mask ..))).trans
        (withRt_of_not_ok _ (extractLsb'_middle ..) rfl)⟩
  · have hr : rtOkT32 rt = false := by rcases h with rfl | rfl <;> rfl
    exact ⟨(decodeT32_of_mrc (Pattern.hits_iff.2 (accessT32_and_mask ..))).trans
        (withRt_of_not_ok _ (rtField_accessT32 ..) hr),
      (decodeT32_of_mcr (Pattern.hits_iff.2 (accessT32_and_mask ..))).trans
        (withRt_of_not_ok _ (rtField_accessT32 ..) hr)⟩
  · rw [decode, if_pos h]
  · rw [decode, h, if_neg Bool.false_ne_true]

/-- Settles O4: sixteen fixed words, each decoded by evaluation. -/
theorem specWordsDecode : Obligations.SpecWordsDecode := by
  unfold Obligations.SpecWordsDecode
  decide

end Sys2Proof

namespace Sys2Proof.Machine

/-! #### Accesses that are not admitted (R56, R58) -/

theorem admittedA32_of_conditional {cond rt : BitVec 4} (hr : rtOkA32 rt = true) (hc : cond ≠ condAlways) (r : Result) :
    admittedA32 cond rt r = .refused .conditionalSysregAccess := by
  simp [admittedA32, hr, hc]

theorem admittedA32_of_bad_rt {rt : BitVec 4} (hr : rtOkA32 rt = false) (cond : BitVec 4) (r : Result) :
    admittedA32 cond rt r = .refused .badRt := by
  simp [admittedA32, hr]

theorem admittedT32_of_bad_rt {rt : BitVec 4} (hr : rtOkT32 rt = false) (r : Result) :
    admittedT32 rt r = .refused .badRt := by
  simp [admittedT32, hr]

/-- Settles O25: the register is checked first, then the condition, whatever the access would do. -/
theorem unadmittedAccessesStop : Obligations.UnadmittedAccessesStop := by
  intro s cond rt
  refine ⟨fun hr hc => ?_, fun h => ?_, fun h => ?_⟩
  · exact ⟨admittedA32_of_conditional hr hc _, admittedA32_of_conditional hr hc _⟩
  · have hr : rtOkA32 rt = false := h ▸ rfl
    exact ⟨admittedA32_of_bad_rt hr cond _, admittedA32_of_bad_rt hr cond _⟩
  · have hr : rtOkT32 rt = false := by rcases h with rfl | rfl <;> rfl
    exact ⟨admittedT32_of_bad_rt hr _, admittedT32_of_bad_rt hr _⟩

end Sys2Proof.Machine

/-! ### Accesses to SCR: the check, a read, a write, and which steps change SCR -/

namespace Sys2Proof.Machine

/-! #### Which steps change SCR (R60, R63, R64, R66, R104) -/

section
variable {s t : State} (hne : t.scr ≠ s.scr)
include hne

theorem ExecDoes.writes_of_scr_ne {i : Instr} (h : ExecDoes i s t) :
    ∃ rt, i.mcrRt = some rt ∧ s.impl.scrExists = true ∧ s.el = .el3 ∧ t.scr = s.writeValue (s.reg rt) ∧
      t.pc = s.pc + 1 := by
  cases h with
  | writes rt hw hl hx => exact ⟨rt, hw, hx, hl, rfl, rfl⟩
  | ends | completes | waits | reads => exact absurd rfl hne

/-- A wait, an exception, a fetch that is not permitted and an error-record access leave SCR alone. -/
theorem ActDoes.runs_of_scr_ne (h : ActDoes s t) :
    ∃ c i, s.fetched = some (.code c) ∧ decode c = .ok i ∧ ExecDoes i s t := by
  cases h with
  | goesOnWaiting => rcases waitThenComplete_cases s with e | e <;> exact absurd (by rw [e]; rfl) hne
  | runs c i t _ hf hd he => exact ⟨c, i, hf, hd, he⟩
  | takes | fetchEnds | accesses => exact absurd rfl hne

end

/-- Settles O51: the PE runs an instruction, and the one that changes SCR is an MCR at EL3. -/
theorem onlyAnMcrAtEl3ChangesScr : Obligations.OnlyAnMcrAtEl3ChangesScr := by
  intro s t h hne
  obtain ⟨-, u, hu, rfl⟩ := step_does h
  have hne : u.scr ≠ (arrive s).scr := hne
  obtain ⟨c, i, hf, hd, hdoes⟩ := hu.runs_of_scr_ne hne
  obtain ⟨rt, hw, hx, hl, hscr, hpc⟩ := hdoes.writes_of_scr_ne hne
  exact ⟨c, i, rt, hf, hd, hw, hx, hl, hscr, hpc⟩

/-- A Secure state outside Monitor mode with HCR.TGE set, where R64 guards NS. -/
structure State.SecureUnderTge (s : State) : Prop where
  tge : s.hcrTGE = true
  mode : s.mode ≠ .monitor
  ns : field .ns s.scr = false

/-- A step that changes SCR leaves a value the guard lets through, so NS stays 0. -/
theorem step_keeps_secureUnderTge (s t : State) (hs : s.SecureUnderTge) (h : step s = .next t) : t.SecureUnderTge := by
  have hfix := stepKeepsWhatIsFixed s t h
  obtain ⟨htge, hmode, hns⟩ := hs
  refine ⟨?_, hfix.mode ▸ hmode, ?_⟩
  · rw [State.hcrTGE, hfix.impl, hfix.ctl]
    exact htge
  · by_cases he : t.scr = s.scr
    · rw [he, hns]
    · obtain ⟨_, _, rt, -, -, -, -, -, hscr, -⟩ := onlyAnMcrAtEl3ChangesScr s t h he
      rw [hscr, ns_writeValue]
      simp [State.nsGuard, htge, hmode, hns]

/-- Settles O53: every step keeps NS at 0 under the guard. -/
theorem tgeKeepsRunsSecure : Obligations.TgeKeepsRunsSecure := by
  intro n s t h2 htge hm hs h
  have hns : field .ns s.scr = false := ((isSecure_iff s).1 hs).resolve_left hm
  have hst : s.SecureUnderTge := ⟨Bool.and_eq_true_iff.2 ⟨h2, htge⟩, hm, hns⟩
  exact (isSecure_iff t).2 (.inr (run_keeps step_keeps_secureUnderTge n hst h).ns)

/-! #### The access check (R60, R65, R103) -/

section
variable {a : AccessInputs}

theorem scrAccessCheck_at_el0_or_el2 (h : a.el = .el0 ∨ a.el = .el2) : scrAccessCheck a = some (.undefined none) := by
  rcases h with h | h <;> simp [scrAccessCheck, h]

theorem scrAccessCheck_at_el3 (h : a.el = .el3) : scrAccessCheck a = none := by
  simp [scrAccessCheck, h]

variable (hl : a.el = .el1)
include hl

/-- At EL1 with EL2 using AArch64, HSTR_EL2.T1, SCR_EL3.EEL2 and an AArch64 EL3 trap, in this order. -/
theorem scrAccessCheck_under_el2_aarch64 (h2 : a.el2AArch32 = false) :
    scrAccessCheck a =
      if a.el2Enabled && a.hstrEl2T1 || !a.scrEl3NS && a.scrEl3EEL2 then some (.systemAccessTrapA64 .el2 3)
      else if !a.el3AArch32 && !a.scrEl3NS then some (.systemAccessTrapA64 .el3 3)
      else some (.undefined none) := by
  cases ht : a.el2Enabled && a.hstrEl2T1 <;> simp [scrAccessCheck, hl, h2, ht]

/-- At EL1 with EL2 using AArch32, HSTR.T1 and an AArch64 EL3 trap, in this order. -/
theorem scrAccessCheck_under_el2_aarch32 (h2 : a.el2AArch32 = true) :
    scrAccessCheck a =
      if a.el2Enabled && a.hstrT1 then some (.hypTrap 3)
      else if !a.el3AArch32 && !a.scrEl3NS then some (.systemAccessTrapA64 .el3 3)
      else some (.undefined none) := by
  simp [scrAccessCheck, hl, h2]

end

section
variable {s : State}

theorem accessCheck_at_el0_or_el2 (hl : s.el = .el0 ∨ s.el = .el2) : s.accessCheck = some (.undefined none) :=
  scrAccessCheck_at_el0_or_el2 (a := s.accessInputs) hl

/-- Where SCR exists EL2 and EL3 use AArch32 (D18), so of the arms at EL1 the Hyp trap and UNDEFINED are left. -/
theorem accessCheck_at_el1 (hx : s.impl.scrExists = true) (hl : s.el = .el1) :
    s.accessCheck = if s.el2Enabled && s.hstrT1 then some (.hypTrap 3) else some (.undefined none) := by
  have h2 : s.accessInputs.el2AArch32 = true := by simp [State.accessInputs, State.el2UsingAArch32, hx]
  have h3 : s.accessInputs.el3AArch32 = true := (Bool.and_eq_true_iff.1 hx).2
  rw [State.accessCheck, scrAccessCheck_under_el2_aarch32 hl h2, h3]
  rfl

end

/-- Settles O17: the levels one by one, EL1 by the Execution state of EL2. -/
theorem accessCheckArms : Obligations.AccessCheckArms := by
  refine ⟨fun a => ⟨fun h => scrAccessCheck_at_el0_or_el2 (.inl h), fun h => scrAccessCheck_at_el0_or_el2 (.inr h),
    scrAccessCheck_at_el3, fun hl => ?_⟩, fun s hx => ?_⟩
  · have h64 := scrAccessCheck_under_el2_aarch64 hl
    have h32 := scrAccessCheck_under_el2_aarch32 hl
    refine ⟨fun he h2 ht => ?_, fun he h2 ht => ?_, fun _ h2 hn hs => ?_, fun h2 ht hs h3 hn => ?_,
      fun h2 ht h3 hn => ?_, fun h2 ht hu => ?_, fun h2 ht hu => ?_⟩
    · simp [h64 h2, he, ht]
    · simp [h32 h2, he, ht]
    · simp [h64 h2, hn, hs]
    · simp [h64 h2, Bool.and_eq_false_iff.2 ht, hs, h3, hn]
    · simp [h32 h2, Bool.and_eq_false_iff.2 ht, h3, hn]
    · rcases hu with hn | ⟨hs, h3⟩
      · simp [h64 h2, Bool.and_eq_false_iff.2 ht, hn]
      · simp [h64 h2, Bool.and_eq_false_iff.2 ht, hs, h3]
    · rcases hu with h3 | hn
      · simp [h32 h2, Bool.and_eq_false_iff.2 ht, h3]
      · simp [h32 h2, Bool.and_eq_false_iff.2 ht, hn]
  · cases hl : s.el with
    | el0 => exact accessCheck_at_el0_or_el2 (.inl hl)
    | el1 => exact accessCheck_at_el1 hx hl
    | el2 => exact accessCheck_at_el0_or_el2 (.inr hl)
    | el3 => exact (accessCheck_eq_none s).2 hl

/-- Settles O18, from the level of each mode. -/
theorem accessCheckByMode : Obligations.AccessCheckByMode := by
  intro s hx
  obtain ⟨-, huser, hhyp, -, -⟩ := securityStateAndLevel s hx
  refine ⟨fun h => accessCheck_at_el0_or_el2 (h.imp huser hhyp), fun h => (accessCheck_eq_none s).2 (el_of_monitor h),
    fun hu hh hm => ?_⟩
  have hl := el_of_pl1 hx hu hh hm
  cases hn : field .ns s.scr with
  | false => exact (accessCheck_eq_none s).2 (by simpa [hn] using hl)
  | true =>
    rw [accessCheck_at_el1 hx (by simpa [hn] using hl)]
    simp [State.el2Enabled, State.hstrT1, hx, hn]

/-- Settles O24: below EL3 the check does not allow the access. -/
theorem accessBelowEl3EndsTheRun : Obligations.AccessBelowEl3EndsTheRun := by
  intro s i ha hrw hl
  obtain ⟨e, he⟩ := Option.ne_none_iff_exists'.1 fun h => hl ((accessCheck_eq_none s).1 h)
  exact ⟨e, he, exec_of_accessCheck_some ha hrw he⟩

/-! #### Non-interference below EL3 (R60): of SCR, the check reads NS alone -/

section
variable {s : State} {v : Word} (h : field .ns v = field .ns s.scr)
include h

theorem accessCheck_withScr_of_ns : (s.withScr v).accessCheck = s.accessCheck := by
  have hl : (s.withScr v).el = s.el := elUnder_congr h s.impl s.mode
  have h2 : (s.withScr v).el2Enabled = s.el2Enabled := by simp [State.el2Enabled, h]
  change scrAccessCheck _ = scrAccessCheck _
  unfold State.accessInputs
  rw [hl, h2]
  rfl

theorem scrAccess_withScr_of_ns (hl : s.el ≠ .el3) (a b : State) :
    scrAccess (s.withScr v) a = onNext (State.withScr v) (scrAccess s b) := by
  obtain ⟨e, he⟩ := Option.ne_none_iff_exists'.1 fun hn => hl ((accessCheck_eq_none s).1 hn)
  rw [scrAccess_ended ((accessCheck_withScr_of_ns h).trans he), scrAccess_ended he]
  rfl

end

/-- Settles O55: the check commutes with replacing SCR, and so does the refusal of a form that is not admitted. -/
theorem accessBelowEl3ShowsNothingOfScr : Obligations.AccessBelowEl3ShowsNothingOfScr := by
  intro s i v hrw hl hn
  change exec i (s.withScr v) = onNext (State.withScr v) (exec i s)
  have access := scrAccess_withScr_of_ns hn hl
  cases i with
  | mrcA32 cond rt | mcrA32 cond rt => exact (congrArg _ (access _ _)).trans (onNext_admittedA32 _ _ _ _).symm
  | mrcT32 rt | mcrT32 rt => exact (congrArg _ (access _ _)).trans (onNext_admittedT32 _ _ _).symm
  | _ => simp [Instr.mrcRt, Instr.mcrRt] at hrw

/-! #### The value a write leaves (R62, R64) -/

/-- The bits that are RW on every implementation (R11). -/
theorem rwOnEveryImplementation_getLsbD {i : Nat} (hi : i < 32) :
    (0x000032BF#32).getLsbD i = decide (i ∈ [0, 1, 2, 3, 4, 5, 7, 9, 12, 13]) := by
  decide +revert

/-- Settles O26, from the bits of `RW_MASK`. -/
theorem writeValueBits : Obligations.WriteValueBits := by
  intro s v i hi
  rw [writeValue_getLsbD s v hi, rwMask_getLsbD s.impl hi, rwOnEveryImplementation_getLsbD hi]
  simp only [Bool.and_comm]

/-- Under the guard or not, a write leaves every writable bit but NS as it is written. -/
theorem writeValue_getLsbD_of_rw (s : State) (v : Word) {i : Nat} (h0 : 0 < i) (hi : i < 32)
    (hrw : (rwMask s.impl).getLsbD i = true) : (s.writeValue v).getLsbD i = v.getLsbD i := by
  simp [writeValue_getLsbD s v hi, hrw, h0.ne']

/-- The NS that is there is no change of NS, so the guard does not hold for it. -/
theorem nsGuard_scr (s : State) : s.nsGuard s.scr = false := by
  simp [State.nsGuard, Bool.and_assoc]

/-- Writing the value of SCR leaves it, where hardwired bits are 0 in it. -/
theorem writeValue_scr {s : State} (hr : s.impl.res0Mode = .hardwired → s.scr &&& res0Mask s.impl = 0) :
    s.writeValue s.scr = s.scr := by
  apply BitVec.eq_of_getLsbD_eq
  intro i hi
  rw [writeValue_getLsbD s _ hi, nsGuard_scr]
  cases hm : s.impl.res0Mode with
  | stored => simp
  | hardwired =>
    have hb : (s.scr &&& res0Mask s.impl).getLsbD i = false := by simp [hr hm]
    rw [BitVec.getLsbD_and, res0Mask_getLsbD s.impl hi] at hb
    simpa using hb

/-! #### MRC and MCR at EL3 (R61, R63, R66) -/

section
variable {s : State} (hx : s.impl.scrExists = true) (hl : s.el = .el3) {i : Instr} {rt : BitVec 4}
  (ha : i.admitted = true)
include hx hl ha

theorem exec_mrc_at_el3 (hr : i.mrcRt = some rt) : exec i s = .next (complete (s.setReg rt s.scr)) :=
  (exec_of_mrcRt ha hr s).trans (readScr_at_el3 hx hl rt)

theorem exec_mcr_at_el3 (hw : i.mcrRt = some rt) :
    exec i s = .next (complete (setScr (s.writeValue (s.reg rt)) s)) :=
  (exec_of_mcrRt ha hw s).trans (writeScr_at_el3 hx hl rt)

end

/-- Settles O22, form by form. -/
theorem mrcReadsScr : Obligations.MrcReadsScr := by
  intro s rt hx hl
  exact ⟨fun hr => exec_mrc_at_el3 (i := .mrcA32 14#4 rt) hx hl hr rfl,
    fun hr => exec_mrc_at_el3 (i := .mrcT32 rt) hx hl hr rfl⟩

/-- Both forms of an MCR at EL3 leave the one state. -/
theorem mcr_forms_at_el3 {s : State} (hx : s.impl.scrExists = true) (hl : s.el = .el3) (rt : BitVec 4) :
    (rtOkA32 rt = true → exec (.mcrA32 14#4 rt) s = .next (complete (setScr (s.writeValue (s.reg rt)) s))) ∧
      (rtOkT32 rt = true → exec (.mcrT32 rt) s = .next (complete (setScr (s.writeValue (s.reg rt)) s))) :=
  ⟨fun hr => exec_mcr_at_el3 (i := .mcrA32 14#4 rt) hx hl hr rfl,
    fun hr => exec_mcr_at_el3 (i := .mcrT32 rt) hx hl hr rfl⟩

/-- Settles O23, from what joining a value does to each hidden set. -/
theorem mcrWritesScr : Obligations.McrWritesScr := by
  intro s rt hx hl
  obtain ⟨ha32, ht32⟩ := mcr_forms_at_el3 hx hl rt
  refine ⟨_, ha32, ht32, rfl, rfl, fun b => ?_, fun v => ?_⟩
  · simp [SifSet.has_add]
  · simp [mem_histAdd, or_comm]

/-- Settles O28: the guard holds back NS alone. -/
theorem nsGuardHoldsNsAtZero : Obligations.NsGuardHoldsNsAtZero := by
  intro s rt hx hl
  obtain ⟨ha32, ht32⟩ := mcr_forms_at_el3 hx hl rt
  refine ⟨_, ha32, ht32, rfl, rfl, ?_, fun i h0 hi hrw => writeValue_getLsbD_of_rw s _ h0 hi hrw⟩
  rw [complete_scr, setScr_scr, ns_writeValue]
  cases hn : field .ns (s.reg rt) with
  | false => rfl
  | true => simp [State.nsGuard, State.hcrTGE, hn, bne, beq_eq_decide]

/-- Adding a value that the set holds changes nothing. -/
theorem SifSet.add_of_has {t : SifSet} {b : Bool} (h : t.has b = true) : t.add b = t := by
  cases t
  cases b <;> simpa [SifSet.add, SifSet.has] using h

/-- In its one form, `scr_hist` holds a value once. -/
theorem histAdd_of_mem {v : Word} {hist : List Word} (hv : v ∈ hist) (h : hist.Pairwise (· < ·)) :
    histAdd v hist = hist := by
  induction hist with
  | nil => simp at hv
  | cons u us ih =>
    obtain ⟨hlt, hus⟩ := List.pairwise_cons.1 h
    rcases List.mem_cons.1 hv with rfl | hm
    · simp [histAdd]
    · have huv : u < v := hlt v hm
      simp [histAdd, BitVec.lt_asymm huv, (BitVec.ne_of_lt huv).symm, ih hm hus]

/-- In a state of a run, SCR and the hidden sets hold the value of SCR already. -/
theorem setScr_scr_of_inv {s : State} (hi : s.Inv) : setScr s.scr s = s := by
  rw [setScr, SifSet.add_of_has hi.sifCurrent, histAdd_of_mem hi.histCurrent hi.histAscending]

/-- Settles O29: the value written is the value of SCR, and the sets hold it. -/
theorem writeBackChangesNothing : Obligations.WriteBackChangesNothing := by
  intro s rt hi hx hl hrt
  have hv : s.writeValue s.scr = s.scr := writeValue_scr fun hm => hi.res0Hardwired hm _ hi.histCurrent
  have hforms := mcr_forms_at_el3 hx hl rt
  rw [hrt, hv, setScr_scr_of_inv hi] at hforms
  exact hforms

/-- Settles O31: the NS written decides the level of the mode, which stays, and below EL3 an access ends the run. -/
theorem writingNsLeavesSecureState : Obligations.WritingNsLeavesSecureState := by
  intro s rt hx hrt hv
  refine ⟨fun hu hh hm hn htge => ?_, fun hm => ?_⟩
  · have hl : s.el = .el3 := by rw [el_of_pl1 hx hu hh hm, hn]; rfl
    set t := complete (setScr (s.writeValue (s.reg rt)) s)
    have hns : field .ns t.scr = true := by
      change field .ns (s.writeValue (s.reg rt)) = true
      simp [ns_writeValue, hv, State.nsGuard, htge]
    have htl : t.el = .el1 := by rw [el_of_pl1 (s := t) hx hu hh hm, hns]; rfl
    refine ⟨t, (mcr_forms_at_el3 hx hl rt).1 hrt, rfl, ?_, htl, fun i ha hrw => ?_⟩
    · exact (nsDeterminesTheSecurityState.2.1 t hx hm).2 hns
    · obtain ⟨e, -, he⟩ := accessBelowEl3EndsTheRun t i ha hrw (by simp [htl])
      exact ⟨e, he⟩
  · exact ⟨_, (mcr_forms_at_el3 hx (el_of_monitor hm) rt).1 hrt, hm, (isSecure_iff _).2 (.inl hm),
      el_of_monitor hm⟩

end Sys2Proof.Machine

/-! ### WFE and WFI, HVC and SMC, error-record accesses -/

namespace Sys2Proof.Machine

/-! #### WFE and WFI, outcome by outcome (R70 to R73) -/

section
variable {w : WaitInstr} {s : State}

theorem exec_wait_eq_next {i : Instr} (hi : i.waitOf = some w) (hx : s.impl.scrExists = true) :
    exec i s = .next (waitState w (i.passes s) s) := by
  rw [exec_of_waitOf hi, waitFor, inConfiguration_of_exists hx]

theorem waitState_of_no_sleep {p : Bool} (h : p = false ∨ s.input.wouldSleep = false) : waitState w p s = complete s := by
  rcases h with h | h <;> simp [waitState, h]

theorem waitThenComplete_of_end (h : s.input.wakeup = true ∨ s.input.waitEnds = true) :
    waitThenComplete s = complete s := by
  simp [waitThenComplete, h]

theorem waitThenComplete_of_no_end (hk : s.input.wakeup = false) (he : s.input.waitEnds = false) :
    waitThenComplete s = keepWaiting s := by
  simp [waitThenComplete, hk, he]

theorem keepWaiting_of_waiting (hw : s.waiting = true) : keepWaiting s = s := by
  rw [keepWaiting, ← hw]

variable (hs : s.input.wouldSleep = true)
include hs

theorem waitState_of_lowerTrap (hl : s.lowerTrap w = true) : waitState w true s = endWith (.lowerELTrap w) s := by
  simp [waitState, hs, hl]

variable (hl : s.lowerTrap w = false)
include hl

theorem waitState_of_trap_not_taken (ht : s.monitorTrapApplies w.field = true) (hd : s.input.trapTaken = false) :
    waitState w true s = complete s := by
  simp [waitState, hs, hl, ht, hd]

theorem waitState_of_no_trap (ht : s.monitorTrapApplies w.field = false) : waitState w true s = waitThenComplete s := by
  simp [waitState, hs, hl, ht]

end

/-- The trap needs the field and a mode other than Monitor (R70, R71, R78). -/
theorem monitorTrapApplies_iff (s : State) (f : Field) :
    s.monitorTrapApplies f = true ↔ s.governed f = true ∧ s.mode ≠ .monitor := by
  simp [State.monitorTrapApplies]

/-- Settles O32: the condition and the sleep are checked before every trap. -/
theorem waitCompletesAtOnce : Obligations.WaitCompletesAtOnce := by
  intro i w s hi hx h
  rw [exec_wait_eq_next hi hx, waitState_of_no_sleep h]
  rfl

/-- Settles O33: the trap to a lower level is checked before the fields are. -/
theorem lowerTrapHasPriority : Obligations.LowerTrapHasPriority := by
  intro i w s hi hx hp hs hl
  rw [exec_wait_eq_next hi hx, hp, waitState_of_lowerTrap hs hl]
  rfl

/-- Settles O34: where the trap applies, the draw of R72 decides between it and completing. -/
theorem monitorTrapOrCompletion : Obligations.MonitorTrapOrCompletion := by
  intro i w s hi hx hp hs hl hg hm
  have ht : s.monitorTrapApplies w.field = true := (monitorTrapApplies_iff s _).2 ⟨hg, hm⟩
  rw [exec_wait_eq_next hi hx, hp]
  refine ⟨fun hd => ?_, fun hd => ?_⟩
  · rw [waitState_of_trap hs hl ht hd]
    rfl
  · rw [waitState_of_trap_not_taken hs hl ht hd]
    rfl

/-- Settles O35: where no trap applies, the instruction is `WaitThenComplete`. -/
theorem untrappedWaitThenCompletes : Obligations.UntrappedWaitThenCompletes := by
  intro i w s hi hx hp hs hl hg
  have ht : s.monitorTrapApplies w.field = false := by
    refine Bool.eq_false_iff.2 fun h => ?_
    obtain ⟨hf, hm⟩ := (monitorTrapApplies_iff s _).1 h
    exact hg.elim (fun h0 => Bool.false_ne_true (h0.symm.trans hf)) hm
  rw [exec_wait_eq_next hi hx, hp, waitState_of_no_trap hs hl ht]
  refine ⟨fun he => ?_, fun hk he => ?_⟩
  · rw [waitThenComplete_of_end he]
    rfl
  · rw [waitThenComplete_of_no_end hk he]
    rfl

/-- Settles O36: in a wait the step is `WaitThenComplete` alone, and a wait that goes on leaves the state as it is. -/
theorem waitGoesOn : Obligations.WaitGoesOn := by
  intro s hn hw
  rw [step_of_running hn, act_of_waiting (s := arrive s) hw, onNext_next]
  refine ⟨fun he => ?_, fun hk he => ?_⟩
  · rw [waitThenComplete_of_end (s := arrive s) he]
    rfl
  · rw [waitThenComplete_of_no_end (s := arrive s) hk he, keepWaiting_of_waiting (s := arrive s) hw]
    rfl

/-! #### The level and the Security state that govern a call (R30, R66, R103) -/

/-- User mode is the one mode at EL0. -/
theorem governedEl_eq_el0_iff (s : State) : s.governedEl = .el0 ↔ s.mode = .user := by
  unfold State.governedEl
  cases s.mode <;> simp [elUnder, apply_ite (· = EL.el0)]

/-- Above EL0 a Non-secure mode is Hyp, at EL2, or a PL1 mode, at EL1. -/
theorem governedEl_of_nonsecure {s : State} (hu : s.mode ≠ .user) (hs : s.governedSecure = false) :
    s.governedEl = if s.mode = .hyp then .el2 else .el1 := by
  unfold State.governedSecure at hs
  unfold State.governedEl
  cases hm : s.mode with
  | user => exact absurd hm hu
  | hyp => rfl
  | monitor => simp [secureUnder, hm] at hs
  | _ =>
    rw [hm] at hs
    simp [elUnder, hs]

/-! #### HVC (R74, R75) -/

theorem exec_hvc_eq_next {i : Instr} {imm16 : BitVec 16} {s : State} (hi : i = .hvcA32 imm16 ∨ i = .hvcT32 imm16)
    (hx : s.impl.scrExists = true) : exec i s = .next (hvcState s) := by
  rcases hi with rfl | rfl <;> exact inConfiguration_of_exists hx _

theorem hvcState_always_undefined {s : State}
    (h : s.impl.haveEl2 = false ∨ s.mode = .user ∨ s.governedSecure = true) : hvcState s = endWith (.undefined none) s := by
  rcases h with h | h | h
  · simp [hvcState, h]
  · simp [hvcState, (governedEl_eq_el0_iff s).2 h]
  · simp [hvcState, h]

/-- At Non-secure EL1 and EL2, HCE decides, then the level, then the choice of D23. -/
theorem hvcState_of_nonsecure {s : State} (h2 : s.impl.haveEl2 = true) (hu : s.mode ≠ .user)
    (hs : s.governedSecure = false) :
    hvcState s =
      if s.governed .hce then endWith .hvcEnabled s
      else if s.mode = .hyp ∧ choiceIsNop s.impl.hce0El2Choice s.input.hce0Nop = true then complete s
      else endWith (.undefined none) s := by
  unfold hvcState
  rw [governedEl_of_nonsecure hu hs]
  by_cases hm : s.mode = .hyp <;> simp [h2, hs, hm]

/-- Settles O38, from what comes before HCE in R75. -/
theorem hvcAlwaysUndefinedThere : Obligations.HvcAlwaysUndefinedThere := by
  intro s imm16 hx h
  rw [exec_hvc_eq_next (.inl rfl) hx, exec_hvc_eq_next (.inr rfl) hx, hvcState_always_undefined h]
  exact ⟨rfl, rfl⟩

/-- Settles O39, from the one equation of an HVC at Non-secure EL1 and EL2. -/
theorem hvcUnderHce : Obligations.HvcUnderHce := by
  intro s i imm16 hi hx h2 hu hs
  rw [exec_hvc_eq_next hi hx, hvcState_of_nonsecure h2 hu hs]
  refine ⟨fun hg => ?_, fun hg hm => ?_, fun hg hm => ?_⟩
  · simp [hg, endWith]
  · simp [hg, hm, endWith]
  · simp [hg, hm, endWith, complete, apply_ite Host.Outcome.next]

/-! #### SMC (R76, R77) -/

theorem exec_smc_eq_next {i : Instr} {cond imm4 : BitVec 4} {s : State} (hi : i = .smcA32 cond imm4 ∨ i = .smcT32 imm4)
    (hp : i.passes s = true) (hx : s.impl.scrExists = true) : exec i s = .next (smcState s) := by
  rcases hi with rfl | rfl
  · exact (inConfiguration_of_exists hx _).trans (congrArg _ (if_pos hp))
  · exact inConfiguration_of_exists hx _

theorem smcState_at_pl0 {s : State} (hu : s.mode = .user) : smcState s = endWith (.undefined none) s := by
  simp [smcState, (governedEl_eq_el0_iff s).2 hu]

section
variable {s : State} (hu : s.mode ≠ .user)
include hu

theorem smcState_of_scd_clear (hg : s.governed .scd = false) : smcState s = endWith .smcEnabled s := by
  simp [smcState, governedEl_eq_el0_iff, hu, hg]

variable (hg : s.governed .scd = true)
include hg

theorem smcState_of_scd_nonsecure (hs : s.governedSecure = false) :
    smcState s = endWith (.undefined (some (if s.mode = .hyp then .el2 else .el1))) s := by
  simp [smcState, governedEl_eq_el0_iff, hu, hg, hs, ← governedEl_of_nonsecure hu hs]

theorem smcState_of_scd_secure (hs : s.governedSecure = true) :
    smcState s =
      if choiceIsNop s.impl.scdSecureChoice s.input.scdNop then complete s else endWith (.undefined none) s := by
  simp [smcState, governedEl_eq_el0_iff, hu, hg, hs]

end

/-- Settles O40: the level is checked before SCD and before the Security state. -/
theorem smcUndefinedAtPl0 : Obligations.SmcUndefinedAtPl0 := by
  intro s i cond imm4 hi hp hx hu
  rw [exec_smc_eq_next hi hp hx, smcState_at_pl0 hu]
  rfl

/-- Settles O41, by SCD and then by the Security state. -/
theorem smcUnderScd : Obligations.SmcUnderScd := by
  intro s i cond imm4 hi hp hx hu
  rw [exec_smc_eq_next hi hp hx]
  refine ⟨fun hg => ?_, fun hg hs => ?_, fun hg hs => ?_⟩
  · rw [smcState_of_scd_clear hu hg]
    rfl
  · rw [smcState_of_scd_nonsecure hu hg hs]
    rfl
  · rw [smcState_of_scd_secure hu hg hs, apply_ite Host.Outcome.next]
    rfl

/-- Settles O42: a condition other than always fails where the input says so. -/
theorem smcFailingItsConditionGoesOn : Obligations.SmcFailingItsConditionGoesOn := by
  intro s cond imm4 hx hc hp
  have hf : s.condPasses cond = false := by simp [State.condPasses, condAlways, hc, hp]
  calc exec (.smcA32 cond imm4) s
      = .next (if s.condPasses cond then smcState s else complete s) := inConfiguration_of_exists hx _
    _ = .next (complete s) := by simp [hf]

/-! #### The error-record access (R78) -/

theorem needsV84_iff (reg : ErrReg) :
    ErrReg.needsV84 reg = true ↔ reg = .erxmisc4 ∨ reg = .erxmisc5 ∨ reg = .erxmisc6 ∨ reg = .erxmisc7 := by
  cases reg <;> decide

section
variable {s : State} (hx : s.impl.scrExists = true) (reg : ErrReg) (dir : ErrDir)
include hx

theorem execErrAccess_of_no_ras (hr : s.impl.haveRas = false) : execErrAccess reg dir s = .refused .noRAS := by
  simp [execErrAccess, inConfiguration_of_exists hx, hr]

variable (hr : s.impl.haveRas = true)
include hr

theorem execErrAccess_of_no_rasV84 (hv : s.impl.haveRasV84 = false) (hn : ErrReg.needsV84 reg = true) :
    execErrAccess reg dir s = .refused .noRASv84 := by
  simp [execErrAccess, inConfiguration_of_exists hx, hr, hv, hn]

/-- An access to a register the implementation describes ends the run, by the order of R81. -/
theorem execErrAccess_of_described (h : s.impl.haveRasV84 = true ∨ ErrReg.needsV84 reg = false) :
    execErrAccess reg dir s =
      .next (endWith
        (if s.input.errPreempted then .otherException reg dir
        else if s.monitorTrapApplies .terr then .monitorTrap (.errAccess reg dir)
        else .errAccessProceeds) s) := by
  have hd : (ErrReg.needsV84 reg && !s.impl.haveRasV84) = false := by rcases h with h | h <;> simp [h]
  rw [execErrAccess, inConfiguration_of_exists hx, hr, hd]
  cases s.input.errPreempted <;> cases s.monitorTrapApplies .terr <;> rfl

end

/-- Settles O43, by whether the implementation describes the register. -/
theorem errAccessUnderTerr : Obligations.ErrAccessUnderTerr := by
  intro s reg dir hx
  refine ⟨execErrAccess_of_no_ras hx reg dir,
    fun hr hv hn => execErrAccess_of_no_rasV84 hx reg dir hr hv ((needsV84_iff reg).2 hn), fun hr h => ?_⟩
  have hd : s.impl.haveRasV84 = true ∨ ErrReg.needsV84 reg = false := by
    refine h.imp_right fun hn => Bool.eq_false_iff.2 fun hv => ?_
    simpa [hn] using (needsV84_iff reg).1 hv
  have ht : s.monitorTrapApplies .terr = (s.governed .terr && decide (s.mode ≠ .monitor)) :=
    Bool.eq_iff_iff.2 (by simp [monitorTrapApplies_iff])
  rw [execErrAccess_of_described hx reg dir hr hd, ht]
  rfl

end Sys2Proof.Machine

/-! ### Non-secure runs, Monitor traps, asynchronous exceptions, and the progress of an admitted instruction -/

namespace Sys2Proof.Machine

/-! #### From Non-secure state SCR is out of reach (R60, R104) -/

/-- EL3 is Secure: its modes are Monitor mode and the Secure PL1 modes (R103). -/
theorem isSecure_of_el3 {s : State} (hl : s.el = .el3) : s.isSecure = true := by
  rcases elUnder_eq_el3 _ _ _ hl with hm | ⟨-, hs, -⟩
  · exact (isSecure_iff s).2 (.inl hm)
  · exact hs

/-- Only an MCR at EL3 changes SCR, and EL3 is not reached in Non-secure state. -/
theorem step_keeps_scr_of_nonsecure {s t : State} (hs : s.isSecure = false) (h : step s = .next t) : t.scr = s.scr := by
  by_contra hne
  obtain ⟨_, _, _, -, -, -, -, hl, -, -⟩ := onlyAnMcrAtEl3ChangesScr s t h hne
  simp [isSecure_of_el3 hl] at hs

/-- A Non-secure state where SCR holds `v`. -/
structure State.NonSecureWith (v : Word) (s : State) : Prop where
  nonSecure : s.isSecure = false
  scr : s.scr = v

/-- A step leaves SCR and the mode, so the Security state they give. -/
theorem step_keeps_nonSecureWith {v : Word} (s t : State) (hs : s.NonSecureWith v) (h : step s = .next t) :
    t.NonSecureWith v := by
  have hscr : t.scr = s.scr := step_keeps_scr_of_nonsecure hs.nonSecure h
  refine ⟨?_, hscr.trans hs.scr⟩
  rw [State.isSecure, (stepKeepsWhatIsFixed s t h).mode, hscr]
  exact hs.nonSecure

/-- Settles O52: every step keeps a Non-secure state and its value of SCR. -/
theorem nonSecureRunsNeverChangeScr : Obligations.NonSecureRunsNeverChangeScr := by
  intro n s t hs h
  obtain ⟨ht, hscr⟩ := run_keeps (step_keeps_nonSecureWith (v := s.scr)) n ⟨hs, rfl⟩ h
  exact ⟨ht, hscr⟩

/-! #### What a Monitor trap comes from (R70, R71, R78, R94) -/

section
variable {s t : State} {cause : TrapCause} (he : s.ended = none) (ht : t.ended = some (.monitorTrap cause))
include he ht

/-- An instruction that ends a run with a Monitor trap is a WFE or WFI whose field traps it, and does nothing else. -/
theorem ExecDoes.of_monitorTrap {i : Instr} (h : ExecDoes i s t) :
    t = endWith (.monitorTrap cause) s ∧
      ∃ w, cause = .wait w ∧ i.waitOf = some w ∧ s.monitorTrapApplies w.field = true := by
  cases h with
  | ends e htrap =>
    obtain rfl : e = .monitorTrap cause := Option.some.inj ht
    exact ⟨rfl, htrap cause rfl⟩
  | completes | waits | reads | writes => simp [he] at ht

/-- What the PE does to end a run with a Monitor trap: it runs such a WFE or WFI, or an error-record access with TERR 1. -/
theorem ActDoes.of_monitorTrap (h : ActDoes s t) :
    t = endWith (.monitorTrap cause) s ∧
      ((∃ w c i, cause = .wait w ∧ s.fetched = some (.code c) ∧ decode c = .ok i ∧ i.waitOf = some w ∧
          s.monitorTrapApplies w.field = true) ∨
        ∃ reg dir, cause = .errAccess reg dir ∧ s.fetched = some (.errAccess reg dir) ∧
          s.monitorTrapApplies .terr = true) := by
  cases h with
  | goesOnWaiting => rcases waitThenComplete_cases s with e | e <;> simp [e, he] at ht
  | takes k => cases k <;> simp [takenEnding] at ht
  | fetchEnds => simp at ht
  | runs c i _ _ hf hd hdoes =>
    obtain ⟨rfl, w, hc, hi, ha⟩ := hdoes.of_monitorTrap he ht
    exact ⟨rfl, .inl ⟨w, c, i, hc, hf, hd, hi, ha⟩⟩
  | accesses reg dir e _ hf _ htrap =>
    obtain rfl : e = .monitorTrap cause := Option.some.inj ht
    obtain ⟨hc, ha⟩ := htrap cause rfl
    exact ⟨rfl, .inr ⟨reg, dir, hc, hf, ha⟩⟩

end

/-- Settles O37, from what the PE does to end a run with a Monitor trap. -/
theorem monitorTrapCauses : Obligations.MonitorTrapCauses := by
  intro s t cause h ht
  obtain ⟨he, u, hu, rfl⟩ := step_does h
  have ht : u.ended = some (.monitorTrap cause) := ht
  obtain ⟨rfl, ⟨w, c, i, rfl, hf, hd, hi, ha⟩ | ⟨reg, dir, rfl, hf, ha⟩⟩ :=
    ActDoes.of_monitorTrap (s := arrive s) he ht hu
  · obtain ⟨hg, hm⟩ := (monitorTrapApplies_iff _ _).1 ha
    refine ⟨hm, ?_, ⟨c, i, hf, hd, hi⟩, rfl, rfl, rfl, rfl⟩
    cases w <;> exact hg
  · obtain ⟨hg, hm⟩ := (monitorTrapApplies_iff _ _).1 ha
    exact ⟨hm, hg, hf, rfl, rfl, rfl, rfl⟩

/-! #### What masks an FIQ and an External abort (R98, R99) -/

@[simp] theorem arrive_masked (s : State) (k : Async) : (arrive s).masked k = s.masked k := by
  cases k <;> rfl

/-- The one table of R98 and R99: the routing field `r`, the field `w` that lets CPSR mask in Non-secure state, the HCR bit,
the bit of CPSR, and what masks otherwise. -/
def State.maskTable (s : State) (r w : Field) (hcr cpsr other : Bool) : Bool :=
  if s.impl.scrExists && s.governed r && !hcr then (if !s.governed w && !s.governedSecure then false else cpsr) else other

theorem masked_fiq (s : State) : s.masked .fiq = s.maskTable .fiq .fw s.hcrFMO s.cpsrF s.input.maskOtherF := rfl

theorem masked_ea (s : State) : s.masked .ea = s.maskTable .ea .aw s.hcrAMO s.cpsrA s.input.maskOtherA := rfl

section
variable {s : State} {r w : Field} {hcr cpsr other : Bool}

theorem maskTable_of_routed (hx : s.impl.scrExists = true) (hr : s.governed r = true) (hh : hcr = false) :
    s.maskTable r w hcr cpsr other = true ↔ cpsr = true ∧ (s.governed w = true ∨ s.governedSecure = true) := by
  cases hw : s.governed w <;> cases hs : s.governedSecure <;> simp [State.maskTable, hx, hr, hh, hw, hs]

theorem maskTable_of_not_routed (h : s.impl.scrExists = false ∨ s.governed r = false ∨ hcr = true) :
    s.maskTable r w hcr cpsr other = other := by
  rcases h with h | h | h <;> simp [State.maskTable, h]

end

/-! #### A masked exception stays pending (R38, R98, R99, D38) -/

theorem masked_eq_false_of_asyncTaken {s : State} {k : Async} (h : s.asyncTaken = some k) : s.masked k = false := by
  unfold State.asyncTaken at h
  split at h
  · simp at h
  · split at h
    · rename_i hpm
      obtain rfl := Option.some.inj h
      simpa using (Bool.and_eq_true_iff.1 hpm).2
    · simp at h

/-- Taking an exception clears its own pending bit and no other (R38). -/
theorem isPending_takeAsync (s : State) (j k : Async) :
    (takeAsync j s).isPending k = (s.isPending k && decide (k ≠ j)) := by
  cases j <;> cases k <;> simp [State.isPending, Pend.clear]

/-- The PE clears a pending bit only by taking the exception. -/
theorem ActDoes.pend_eq_or_takes {s t : State} (h : ActDoes s t) :
    t.pend = s.pend ∨ ∃ k, s.asyncTaken = some k ∧ t = takeAsync k s := by
  cases h with
  | goesOnWaiting => rcases waitThenComplete_cases s with e | e <;> exact .inl (by rw [e]; rfl)
  | takes k _ hk => exact .inr ⟨k, hk, rfl⟩
  | fetchEnds | accesses => exact .inl rfl
  | runs _ _ _ _ _ _ he => exact .inl he.pend_env_tick.1

/-- What the environment's part of a step leaves pending is what was pending or is asserted now. -/
theorem isPending_arrive_of_isPending {s : State} {k : Async} (h : s.isPending k = true) :
    (arrive s).isPending k = true := by
  cases k <;> exact Bool.or_eq_true_iff.2 (.inl h)

theorem isPending_eq_of_pend_eq {s t : State} (h : t.pend = s.pend) (k : Async) : t.isPending k = s.isPending k := by
  cases k <;> simp [State.isPending, h]

/-- The exception a step takes is not a masked one, and no other pending bit is cleared. -/
theorem step_keeps_masked_pending {s t : State} {k : Async} (hm : s.masked k = true) (hp : s.isPending k = true)
    (h : step s = .next t) : t.isPending k = true := by
  have hp : (arrive s).isPending k = true := isPending_arrive_of_isPending hp
  obtain ⟨-, u, hu, rfl⟩ := step_does h
  rcases hu.pend_eq_or_takes with he | ⟨j, hj, rfl⟩
  · exact (isPending_eq_of_pend_eq (t := endStep u) he k).trans hp
  · have hjm : s.masked j = false := by simpa using masked_eq_false_of_asyncTaken hj
    have hkj : k ≠ j := fun e => by simp [e, hjm] at hm
    calc (endStep (takeAsync j (arrive s))).isPending k = (takeAsync j (arrive s)).isPending k :=
          isPending_eq_of_pend_eq (endStep_pend _) k
      _ = true := by simp [isPending_takeAsync, hp, hkj]

/-- Settles O47, by the table of R98. -/
theorem fiqMasking : Obligations.FiqMasking :=
  ⟨fun s => masked_fiq s ▸ ⟨maskTable_of_routed, maskTable_of_not_routed⟩,
    fun _ _ hm hp h => step_keeps_masked_pending (k := .fiq) hm hp h⟩

/-- Settles O48, by the table of R99. -/
theorem externalAbortMasking : Obligations.ExternalAbortMasking :=
  ⟨fun s => masked_ea s ▸ ⟨maskTable_of_routed, maskTable_of_not_routed⟩,
    fun _ _ hm hp h => step_keeps_masked_pending (k := .ea) hm hp h⟩

/-! #### The progress of an admitted instruction (R90) -/

theorem scrAccess_eq_some_next {s : State} (hx : s.impl.scrExists = true) (a : State) : ∃ t, scrAccess s a = .next t := by
  cases hc : s.accessCheck with
  | some e => exact ⟨endWith e s, scrAccess_ended hc a⟩
  | none => exact ⟨a, scrAccess_allowed hc hx a⟩

/-- Where SCR exists, an admitted instruction completes, waits or ends the run. -/
theorem exec_eq_some_next {i : Instr} {s : State} (hx : s.impl.scrExists = true) (ha : i.admitted = true) :
    ∃ t, exec i s = .next t := by
  cases i with
  | mrcA32 cond rt | mrcT32 rt =>
    rw [exec_of_mrcRt ha rfl s]
    exact scrAccess_eq_some_next hx _
  | mcrA32 cond rt | mcrT32 rt =>
    rw [exec_of_mcrRt ha rfl s]
    exact scrAccess_eq_some_next hx _
  | wfeA32 | wfiA32 | wfeT16 | wfiT16 | wfeW | wfiW => exact ⟨_, exec_wait_eq_next rfl hx⟩
  | smcA32 | hvcA32 | smcT32 | hvcT32 => exact ⟨_, inConfiguration_of_exists hx _⟩

/-- Whether the PE waits, takes an exception, or may not fetch: at an admitted instruction it always answers a next state. -/
theorem act_eq_some_next {s : State} {c : CodeWord} {i : Instr} (hx : s.impl.scrExists = true)
    (hf : s.fetched = some (.code c)) (hd : decode c = .ok i) (ha : i.admitted = true) : ∃ t, act s = .next t := by
  cases hw : s.waiting with
  | true => exact ⟨_, act_of_waiting hw⟩
  | false =>
    cases hk : s.asyncTaken with
    | some k => exact ⟨_, act_of_taken hw hk hx⟩
    | none =>
      rw [act_of_no_exception hw hk]
      cases hp : s.fetchPermitted with
      | false => exact ⟨_, fetchAndRun_of_forbidden hf hp⟩
      | true =>
        rw [fetchAndRun_of_permitted hf hp, runItem_of_decoded hd]
        exact exec_eq_some_next hx ha

/-- Nothing the PE does moves the number of the step; the end of the step does (R42). -/
theorem ActDoes.tick_eq {s t : State} (h : ActDoes s t) : t.tick = s.tick := by
  cases h with
  | goesOnWaiting => rcases waitThenComplete_cases s with e | e <;> rw [e] <;> rfl
  | takes | fetchEnds | accesses => rfl
  | runs _ _ _ _ _ _ he => exact he.pend_env_tick.2.2

/-- Settles O57: the PE answers a next state at an admitted instruction, and the end of the step adds 1 to its number. -/
theorem admittedInstructionsGoOn : Obligations.AdmittedInstructionsGoOn := by
  intro s c i he hx hf hd ha
  obtain ⟨u, hu⟩ := act_eq_some_next (s := arrive s) hx hf hd ha
  refine ⟨endStep u, ?_, ?_⟩
  · rw [step_of_running he, hu, onNext_next]
  · rw [endStep_tick, (act_does hu).tick_eq, arrive_tick]

/-! #### Routing (R95 to R97) -/

/-- A pending exception that is not masked and that the scheduler takes is no longer pending, and goes to its route. -/
theorem step_takes_to_route {s : State} {k : Async} (he : s.ended = none) (hw : s.waiting = false)
    (hx : s.impl.scrExists = true) (ht : s.input.take = some k) (hp : (arrive s).isPending k = true)
    (hm : s.masked k = false) :
    ∃ t, step s = .next t ∧ t.isPending k = false ∧ t.ended = some (takenEnding k (s.route k)) := by
  refine ⟨_, stepTakesAnEnabledException s k he hw hx ht hp ((arrive_masked s k).trans hm), ?_, rfl⟩
  exact (isPending_eq_of_pend_eq (s := takeAsync k (arrive s)) rfl k).trans (by simp [isPending_takeAsync])

/-- Settles O44, by the route of an IRQ. -/
theorem irqRouting : Obligations.IrqRouting := fun _ he hw hx ht hp hm =>
  step_takes_to_route (k := .irq) he hw hx ht (Bool.or_eq_true_iff.2 hp) hm

/-- Settles O45, by the route of an FIQ. -/
theorem fiqRouting : Obligations.FiqRouting := fun _ he hw hx ht hp hm =>
  step_takes_to_route (k := .fiq) he hw hx ht (Bool.or_eq_true_iff.2 hp) hm

/-- Settles O46, by the route of an External abort. -/
theorem externalAbortRouting : Obligations.ExternalAbortRouting := fun _ he hw hx ht hp hm =>
  step_takes_to_route (k := .ea) he hw hx ht (Bool.or_eq_true_iff.2 hp) hm

end Sys2Proof.Machine
